-- ==== Sys2Proof/Word.lean ====
section
/-! DEFINITION. The machine's word, the console's byte and the register number. -/

namespace Sys2Proof

/-- A 32-bit unsigned value: a register, a memory word, the finger, a handle, an index, a size
(00_scope.md R5). -/
abbrev Word := BitVec 32

/-- One byte of the console or of the program image (00_scope.md R9). -/
abbrev Byte := BitVec 8

/-- A register number `0 .. 7`, the unsigned value of a 3-bit selector (00_scope.md R5,
30_encoding.md R68). -/
abbrev Reg := Fin 8

end Sys2Proof
end

