-- ==== Sys2Proof/Syntax.lean ====
section
/-! DEFINITION. The fourteen instructions of the opcode map, with the operands each one uses. -/

namespace Sys2Proof

/-- The instructions of 30_encoding.md R63. A constructor carries the fields R64 marks as used, in
field order; the ignored selectors and bits 27:9 are dropped by the decoder (R65). -/
inductive Instr where
  /-- `CMOV rA, rB, rC`, opcode 0 (41_data_movement.md R90). -/
  | cmov (a b c : Reg)
  /-- `AIDX rA, rB, rC`, opcode 1 (42_array_access.md R100). -/
  | aidx (a b c : Reg)
  /-- `AMEND rA, rB, rC`, opcode 2 (42_array_access.md R101). -/
  | amend (a b c : Reg)
  /-- `ADD rA, rB, rC`, opcode 3 (43_alu.md R110). -/
  | add (a b c : Reg)
  /-- `MUL rA, rB, rC`, opcode 4 (43_alu.md R111). -/
  | mul (a b c : Reg)
  /-- `DIV rA, rB, rC`, opcode 5 (43_alu.md R112). -/
  | div (a b c : Reg)
  /-- `NAND rA, rB, rC`, opcode 6 (43_alu.md R113). -/
  | nand (a b c : Reg)
  /-- `HALT`, opcode 7 (46_control.md R140). -/
  | halt
  /-- `ALLOC rB, rC`, opcode 8 (44_allocation.md R120). -/
  | alloc (b c : Reg)
  /-- `ABANDON rC`, opcode 9 (44_allocation.md R121). -/
  | abandon (c : Reg)
  /-- `OUT rC`, opcode 10 (45_console.md R130). -/
  | out (c : Reg)
  /-- `IN rC`, opcode 11 (45_console.md R131). -/
  | inp (c : Reg)
  /-- `LOADPROG rB, rC`, opcode 12 (46_control.md R141). -/
  | loadprog (b c : Reg)
  /-- `ORTH rS, imm`, opcode 13 (41_data_movement.md R91). `imm` is the immediate as the assembler
  writes it, a number; `WellFormed` bounds it (30_encoding.md R71). -/
  | orth (s : Reg) (imm : Nat)
deriving DecidableEq, Repr

end Sys2Proof
end

