-- ==== Sys2Proof/WellFormed.lean ====
section
/-! DEFINITION. Which instructions can be written as a word. -/

namespace Sys2Proof

/-- An instruction every operand of which fits its field. A register number is in range by its
type; the one operand that can be out of range is the immediate of `ORTH`, which has 25 bits:
`0 <= imm <= 33554431` (30_encoding.md R68, R71). -/
def Instr.wellFormed : Instr → Bool
  | .cmov _ _ _ => true
  | .aidx _ _ _ => true
  | .amend _ _ _ => true
  | .add _ _ _ => true
  | .mul _ _ _ => true
  | .div _ _ _ => true
  | .nand _ _ _ => true
  | .halt => true
  | .alloc _ _ => true
  | .abandon _ => true
  | .out _ => true
  | .inp _ => true
  | .loadprog _ _ => true
  | .orth _ imm => decide (imm ≤ 33554431)

end Sys2Proof
end

