-- ==== Sys2Proof/Decode.lean ====
section
/-! DEFINITION. The Codec: from a word to an instruction, and the canonical encoder
(30_encoding.md). -/

namespace Sys2Proof

/-- Why a word is no instruction. -/
inductive DecodeError where
  /-- The operation code is 14 or 15 (30_encoding.md R66). Raised by `decode`; `step` turns it into
  the machine's `InvalidOpcode` fault. Safe: the spec says exactly this. -/
  | invalidOpcode (op : BitVec 4)
deriving DecidableEq, Repr

/-! ### The fields of a word (R61, R62) -/

/-- `OP = w[31:28]` (R63). -/
def opField (w : Word) : BitVec 4 := w.extractLsb' 28 4

/-- `A = w[8:6]` (R61; the spec's decision D1 binds the letter to the position). -/
def aField (w : Word) : Reg := (w.extractLsb' 6 3).toFin

/-- `B = w[5:3]` (R61). -/
def bField (w : Word) : Reg := (w.extractLsb' 3 3).toFin

/-- `C = w[2:0]` (R61). -/
def cField (w : Word) : Reg := (w.extractLsb' 0 3).toFin

/-- `S = w[27:25]`, of the immediate format only (R62). -/
def sField (w : Word) : Reg := (w.extractLsb' 25 3).toFin

/-- `IMM = w[24:0]`, taken as an unsigned number (R62, R68). -/
def immField (w : Word) : Nat := (w.extractLsb' 0 25).toNat

/-- `Decode` of R69: total on words, a pure function of the word. Opcodes 14 and 15, and no other,
are rejected (R66). -/
def decode (w : Word) : Except DecodeError Instr :=
  match (opField w).toNat with
  | 0 => .ok (.cmov (aField w) (bField w) (cField w))
  | 1 => .ok (.aidx (aField w) (bField w) (cField w))
  | 2 => .ok (.amend (aField w) (bField w) (cField w))
  | 3 => .ok (.add (aField w) (bField w) (cField w))
  | 4 => .ok (.mul (aField w) (bField w) (cField w))
  | 5 => .ok (.div (aField w) (bField w) (cField w))
  | 6 => .ok (.nand (aField w) (bField w) (cField w))
  | 7 => .ok .halt
  | 8 => .ok (.alloc (bField w) (cField w))
  | 9 => .ok (.abandon (cField w))
  | 10 => .ok (.out (cField w))
  | 11 => .ok (.inp (cField w))
  | 12 => .ok (.loadprog (bField w) (cField w))
  | 13 => .ok (.orth (sField w) (immField w))
  | _ => .error (.invalidOpcode (opField w))

/-- The instruction this decoder reads from the low `nbits` bits of `w`. An instruction is one
32-bit word (R60), so a number that needs more bits is none. -/
def decodeTableWord (nbits w : Nat) : Option Instr :=
  if w % Nat.pow 2 nbits < 0x100000000 then
    match decode (BitVec.ofNat 32 (w % Nat.pow 2 nbits)) with
    | .ok i => some i
    | .error _ => none
  else none

/-! ### The canonical encoder (R70) -/

/-- `EncodeStd(op, A, B, C)` of R70: bits 27:9 are 0. -/
def encodeStd (op : Nat) (a b c : Reg) : Word :=
  (BitVec.ofNat 32 op <<< 28) ||| (BitVec.ofNat 32 a.val <<< 6) ||| (BitVec.ofNat 32 b.val <<< 3)
    ||| BitVec.ofNat 32 c.val

/-- `EncodeImm(S, IMM)` of R70, of the 25-bit field `imm`. -/
def encodeImm (s : Reg) (imm : BitVec 25) : Word :=
  (13#32 <<< 28) ||| (BitVec.ofNat 32 s.val <<< 25) ||| imm.setWidth 32

/-- The operation code of an instruction (R63). -/
def Instr.opcode : Instr → BitVec 4
  | .cmov _ _ _ => 0
  | .aidx _ _ _ => 1
  | .amend _ _ _ => 2
  | .add _ _ _ => 3
  | .mul _ _ _ => 4
  | .div _ _ _ => 5
  | .nand _ _ _ => 6
  | .halt => 7
  | .alloc _ _ => 8
  | .abandon _ => 9
  | .out _ => 10
  | .inp _ => 11
  | .loadprog _ _ => 12
  | .orth _ _ => 13

/-- The word the assembler of R71 writes: a field an operation ignores is 0 (R70). -/
def encode : Instr → Word
  | .cmov a b c => encodeStd 0 a b c
  | .aidx a b c => encodeStd 1 a b c
  | .amend a b c => encodeStd 2 a b c
  | .add a b c => encodeStd 3 a b c
  | .mul a b c => encodeStd 4 a b c
  | .div a b c => encodeStd 5 a b c
  | .nand a b c => encodeStd 6 a b c
  | .halt => encodeStd 7 0 0 0
  | .alloc b c => encodeStd 8 0 b c
  | .abandon c => encodeStd 9 0 0 c
  | .out c => encodeStd 10 0 0 c
  | .inp c => encodeStd 11 0 0 c
  | .loadprog b c => encodeStd 12 0 b c
  | .orth s imm => encodeImm s (BitVec.ofNat 25 imm)

end Sys2Proof
end

