-- ==== Sys2Proof/Machine/Bank.lean ====
section
/-! DEFINITION. The Memory Bank as data: arrays, slots, the handle table and the free list
(10_state.md R14 to R19). -/

namespace Sys2Proof.Machine

/-- An array of 32-bit words (10_state.md R16): its length, and those of its words that are not 0,
as (index, word) pairs with rising indices. Every unlisted index below `len` holds 0, the value an
array is created with (R16, 20_memory.md R40). The cell is a word because the machine has no smaller
unit (20_memory.md R31). Log 1. -/
structure WordArray where
  len : Nat
  cells : List (Nat × Word)
deriving DecidableEq, Repr

/-- A slot of the handle table is live and holds an array, or free and holds nothing
(10_state.md R15, 20_memory.md R42). -/
inductive Slot where
  | live (a : WordArray)
  | free
deriving DecidableEq, Repr

/-- The Memory Bank (10_state.md R14, R18). `slots` is the handle table, slot `h` at position `h`;
its length is `N` (R19). `free` is the free list, its top first. -/
structure Memory where
  slots : List Slot
  free : List Word
deriving DecidableEq, Repr

end Sys2Proof.Machine
end

