-- ==== Sys2Proof/Config.lean ====
section
/-! DEFINITION. What an implementation or the environment fixes (00_scope.md R6), and the free
value. -/

namespace Sys2Proof

/-- One answer of the environment to `read_byte()` (45_console.md R133). -/
inductive ConsoleAnswer where
  | byte (b : Byte)
  | endOfInput
deriving DecidableEq, Repr

/-- How the implementation decides the part of `alloc_admits` that R6 leaves to it. Log 3. -/
inductive AllocPolicy where
  /-- Every request is admitted that R6 does not force to be refused: the default of R6. -/
  | admitAll
  /-- The implementation's own predicate, `Config.allocChoice`, of which nothing is known. -/
  | uninterpreted
deriving DecidableEq, Repr

/-- The parameters of an implementation (00_scope.md R6). `IMAGE` and `CONSOLE_IN` are not here: the
image is the argument of reset and the answers stand in `State.consoleIn`. -/
structure Params where
  /-- `CAP_HANDLES`, the most slots the handle table can hold. -/
  capHandles : Nat
  /-- `MAX_ARRAY_WORDS`, the longest array the bank can hold. -/
  maxArrayWords : Nat
  /-- The rest of `alloc_admits`. -/
  policy : AllocPolicy
deriving DecidableEq, Repr

/-- The constraints R6 puts on the parameters: `1 <= CAP_HANDLES <= 2^32` and
`MAX_ARRAY_WORDS <= 2^32 - 1`. -/
abbrev Params.wf (p : Params) : Prop :=
  1 ≤ p.capHandles ∧ p.capHandles ≤ 0x100000000 ∧ p.maxArrayWords ≤ 0xFFFFFFFF

/-- The defaults of R6's table: `2^32`, `2^32 - 1`, admitted unless forced. -/
def Params.default : Params :=
  { capHandles := 0x100000000, maxArrayWords := 0xFFFFFFFF, policy := .admitAll }

/-- FREE VALUE. The implementation's choice whether a request of a size is admitted in a state of
the bank (00_scope.md R6, 92_eei_decisions.md D8). Log 3. -/
opaque Config.allocChoice : Machine.Memory → Word → Bool

end Sys2Proof
end

