-- ==== Sys2Proof/Machine/State.lean ====
section
/-! DEFINITION. The architectural state (10_state.md), the outcomes' reasons and the state after
reset. -/

namespace Sys2Proof.Machine

/-- The six run-time faults of 60_exceptions.md R150, in its order. -/
inductive FaultKind where
  | invalidOpcode
  | invalidHandle
  | indexError
  | divideByZero
  | outOfRange
  | allocationError
deriving DecidableEq, Repr

/-- The machine status (10_state.md R13). `fpc` is the recorded finger (60_exceptions.md R157). -/
inductive Status where
  | running
  | halted
  | faulted (kind : FaultKind) (fpc : Word)
deriving DecidableEq, Repr

/-- The whole state (10_state.md R10 to R22): there is no other (R21). -/
structure State where
  /-- `x[0]` to `x[7]` (R10, R11). -/
  regs : Vector Word 8
  /-- The finger (R12). -/
  pc : Word
  /-- The machine status (R13). -/
  status : Status
  /-- The Memory Bank with its free list (R14 to R19). -/
  mem : Memory
  /-- The `OUT` trace, oldest byte first (R22). -/
  out : List Byte
  /-- The console answers the environment has supplied so far, from the first (00_scope.md R6). No
  step writes them; the environment supplies more by `State.supply`. Log 4. -/
  consoleIn : List ConsoleAnswer
  /-- How many answers have been consumed: the position in `CONSOLE_IN` (R23). -/
  inPos : Nat
  /-- The model's own: an `IN` whose step is not complete, since no answer has been supplied, and
  its destination (45_console.md R135). Log 5. -/
  waiting : Option Reg
  /-- The implementation's parameters (00_scope.md R6); no step writes them. Log 2. -/
  params : Params
deriving DecidableEq, Repr

/-- Why `step` has no next state. A fault of the MACHINE is not one of these: it is a next state
whose status is `FAULTED` (60_exceptions.md R156). Log 7. -/
inductive Fault where
  /-- Answered by `step` when the status is `HALTED`: no further step is taken (40_step.md R80).
  Safe: nothing can be proved of a step that does not happen. -/
  | halted
  /-- Answered by `step` when the status is `FAULTED(kind, fpc)`: no further step is taken
  (10_state.md R13). Safe, for the same reason. -/
  | faulted (kind : FaultKind) (fpc : Word)
deriving DecidableEq, Repr

/-- Why the model gives an instruction no meaning. -/
inductive Refusal where
  /-- No meaning has been written for the instruction. No arm of `exec` answers it: all fourteen
  instructions have their meaning. Safe: it would only stop a run. -/
  | notModelled (mnemonic : String)
deriving DecidableEq, Repr

/-- The state after reset (10_state.md R23) for the default parameters of 00_scope.md R6, no
console answer supplied and the empty image, which 70_reset_and_hazards.md R175 makes legal. Reset
with an image is `State.boot`. Logs 2, 4 and 6. -/
def State.reset : State :=
  { regs := Vector.replicate 8 0#32
    pc := 0#32
    status := .running
    mem := { slots := [.live { len := 0, cells := [] }], free := [] }
    out := []
    consoleIn := []
    inPos := 0
    waiting := none
    params := Params.default }

end Sys2Proof.Machine
end

