-- ==== Sys2Proof/Machine/Memory.lean ====
section
/-! DEFINITION. The Memory Bank's operations: handle lookup, translation, read, write, allocation,
release and program swap (20_memory.md R33 to R44), and the canonical form of its data. -/

namespace Sys2Proof.Machine

/-! ### One array -/

/-- The word at an index: 0 where no cell is listed, the value an array is created with
(10_state.md R16). Only indices below `len` are ever asked for. -/
def lookupCell : List (Nat × Word) → Nat → Word
  | [], _ => 0#32
  | c :: t, i => if c.1 = i then c.2 else lookupCell t i

/-- A cell put in its place among cells with rising indices. -/
def insertCell (i : Nat) (v : Word) : List (Nat × Word) → List (Nat × Word)
  | [] => [(i, v)]
  | c :: t => if i < c.1 then (i, v) :: c :: t else c :: insertCell i v t

/-- The cells with the word at `i` set: a word of 0 is not listed. -/
def storeCell (cells : List (Nat × Word)) (i : Nat) (v : Word) : List (Nat × Word) :=
  let rest := cells.filter (fun c => decide (c.1 ≠ i))
  if v = 0#32 then rest else insertCell i v rest

/-- The array of `n` words, all 0 (10_state.md R16). -/
def WordArray.zeros (n : Nat) : WordArray := { len := n, cells := [] }

/-- `a[i]`. -/
def WordArray.get (a : WordArray) (i : Nat) : Word := lookupCell a.cells i

/-- The array with `a[i]` set and nothing else changed, its length least of all
(20_memory.md R37). -/
def WordArray.set (a : WordArray) (i : Nat) (v : Word) : WordArray :=
  { a with cells := storeCell a.cells i v }

/-- The cells of a list of words whose first stands at index `base`. -/
def cellsOfWords (base : Nat) : List Word → List (Nat × Word)
  | [] => []
  | w :: ws => if w = 0#32 then cellsOfWords (base + 1) ws else (base, w) :: cellsOfWords (base + 1) ws

/-- The array that holds a list of words, in order (70_reset_and_hazards.md R171). -/
def WordArray.ofWords (ws : List Word) : WordArray :=
  { len := ws.length, cells := cellsOfWords 0 ws }

/-- The words of an array, in order: what a host reads from a stopped core
(70_reset_and_hazards.md R176). -/
def WordArray.words (a : WordArray) : List Word := (List.range a.len).map a.get

/-- The canonical form of an array: indices strictly rise, all lie below the length, no listed word
is 0. Two arrays in this form are equal when they have the same length and words. Log 1. -/
abbrev WordArray.wf (a : WordArray) : Prop :=
  a.cells.Pairwise (fun c d => c.1 < d.1) ∧ ∀ c ∈ a.cells, c.1 < a.len ∧ c.2 ≠ 0#32

/-! ### Handle lookup and translation -/

/-- `N`, the current array count: live and free slots together (10_state.md R19). -/
def Memory.count (m : Memory) : Nat := m.slots.length

/-- The array of a live slot; a free slot holds nothing (10_state.md R15). -/
def Slot.array? : Slot → Option WordArray
  | .live a => some a
  | .free => none

/-- The array a handle names, where the handle is live: `h < N` and slot `h` is live
(20_memory.md R33). -/
def Memory.array? (m : Memory) (h : Word) : Option WordArray := m.slots[h.toNat]?.bind Slot.array?

/-- `live(h)` (10_state.md R15). -/
def Memory.live (m : Memory) (h : Word) : Bool := (m.array? h).isSome

/-- `Translate(h, i)` (20_memory.md R34, R35): the array the handle names, once the index is known
to lie inside it. -/
def Memory.translate (m : Memory) (h i : Word) : Except FaultKind WordArray :=
  match m.array? h with
  | none => .error .invalidHandle
  | some a => if a.len ≤ i.toNat then .error .indexError else .ok a

/-- `MemRead((h, i), 1)` (20_memory.md R36). -/
def Memory.read (m : Memory) (h i : Word) : Except FaultKind Word :=
  match m.translate h i with
  | .error k => .error k
  | .ok a => .ok (a.get i.toNat)

/-- The bank with the array of one handle replaced and nothing else changed. -/
def Memory.setArray (m : Memory) (h : Word) (a : WordArray) : Memory :=
  { m with slots := m.slots.set h.toNat (.live a) }

/-- `MemWrite((h, i), 1, v)` (20_memory.md R37). -/
def Memory.write (m : Memory) (h i v : Word) : Except FaultKind Memory :=
  match m.translate h i with
  | .error k => .error k
  | .ok a => .ok (m.setArray h (a.set i.toNat v))

/-! ### Allocation, release, program swap -/

/-- The part of `alloc_admits` that 00_scope.md R6 leaves to the implementation. Log 3. -/
def allocChosen (p : Params) (m : Memory) (size : Word) : Bool :=
  match p.policy with
  | .admitAll => true
  | .uninterpreted => Config.allocChoice m size

/-- `alloc_admits(bank, size)` (00_scope.md R6): forced to be false for a size above
`MAX_ARRAY_WORDS`, and for a request that would have to mint a handle when `N = CAP_HANDLES`. -/
def allocAdmits (p : Params) (m : Memory) (size : Word) : Bool :=
  decide (size.toNat ≤ p.maxArrayWords) && !(m.free.isEmpty && decide (m.count = p.capHandles))
    && allocChosen p m size

/-- `Allocate(size)` (20_memory.md R39): the top of the free list, or else a new handle `N`, with a
fresh array of zeros. -/
def Memory.allocate (p : Params) (m : Memory) (size : Word) : Except FaultKind (Word × Memory) :=
  if allocAdmits p m size then
    match m.free with
    | h :: rest =>
      .ok (h, { slots := m.slots.set h.toNat (.live (WordArray.zeros size.toNat)), free := rest })
    | [] =>
      .ok (BitVec.ofNat 32 m.count,
        { slots := m.slots ++ [.live (WordArray.zeros size.toNat)], free := [] })
  else .error .allocationError

/-- `Release(h)` (20_memory.md R41, R42): the slot holds nothing afterwards and the handle is the
top of the free list. -/
def Memory.release (m : Memory) (h : Word) : Except FaultKind Memory :=
  if h = 0#32 ∨ m.live h = false then .error .invalidHandle
  else .ok { slots := m.slots.set h.toNat .free, free := h :: m.free }

/-- `ReplaceProgram(h)` (20_memory.md R43): array 0 becomes a copy of array `h`. -/
def Memory.replaceProgram (m : Memory) (h : Word) : Except FaultKind Memory :=
  if h = 0#32 then .ok m
  else
    match m.array? h with
    | none => .error .invalidHandle
    | some a => .ok (m.setArray 0#32 a)

/-! ### The invariants of the bank -/

/-- The live arrays, in handle order. -/
def Memory.arrays (m : Memory) : List WordArray := m.slots.filterMap Slot.array?

/-- Every handle on the free list names a free slot and is not 0 (10_state.md R20 items 2, 3). -/
def Memory.freeListed (m : Memory) : Bool :=
  m.free.all fun h => decide (h ≠ 0#32 ∧ m.slots[h.toNat]? = some .free)

/-- The invariants of 10_state.md R20, items 1 to 3, and every array in canonical form. -/
abbrev Memory.wf (m : Memory) : Prop :=
  m.live 0#32 = true ∧
  (∀ k, k < m.slots.length → m.slots[k]? = some .free → BitVec.ofNat 32 k ∈ m.free) ∧
  m.freeListed = true ∧
  m.free.Nodup ∧
  ∀ a ∈ m.arrays, a.wf

/-- The bounds of 10_state.md R19 and R20 item 4. -/
abbrev Memory.fits (p : Params) (m : Memory) : Prop :=
  m.count ≤ p.capHandles ∧ ∀ a ∈ m.arrays, a.len ≤ p.maxArrayWords

end Sys2Proof.Machine
end

