-- ==== Sys2Proof/Machine/Operands.lean ====
section
/-! DEFINITION. How an operand becomes a 32-bit value: registers, the immediate, a console byte
(30_encoding.md R64, R68; 45_console.md R131). -/

namespace Sys2Proof.Machine

/-- `x[r]` (00_scope.md R8, 10_state.md R11). -/
def State.reg (s : State) (r : Reg) : Word := s.regs[r]

/-- `x[r] <- v` (00_scope.md R8). -/
def State.setReg (s : State) (r : Reg) (v : Word) : State := { s with regs := s.regs.set r v }

/-- `imm32 = zext_32(IMM)`, `IMM` being 25 bits (30_encoding.md R68). -/
def immValue (imm : Nat) : Word := (BitVec.ofNat 25 imm).setWidth 32

/-- `zext_32(b)` of a console byte (45_console.md R131). -/
def byteValue (b : Byte) : Word := b.setWidth 32

/-- The value `IN` writes at end of input: all bits set (00_scope.md R5, 45_console.md R131). -/
def endOfInputValue : Word := 0xFFFFFFFF#32

/-- What an answer of the console puts into a register (45_console.md R131). -/
def answerValue : ConsoleAnswer → Word
  | .byte b => byteValue b
  | .endOfInput => endOfInputValue

/-- `v[7:0]`, the byte `OUT` emits (45_console.md R130). -/
def lowByte (v : Word) : Byte := v.extractLsb' 0 8

end Sys2Proof.Machine
end

