-- ==== Sys2Proof/Machine/Ops.lean ====
section
/-! DEFINITION. The named operations of 00_scope.md R8 over the state: entering a fault, the finger,
the status, the Memory Bank and the console. -/

namespace Sys2Proof.Machine

/-- `Host.Outcome` with this machine's reasons. -/
abbrev Answer := Host.Outcome State Fault Refusal

/-- The cause codes 1 to 6 of 60_exceptions.md R150, the spec's own numbering (D20). -/
def FaultKind.code : FaultKind → Nat
  | .invalidOpcode => 1
  | .invalidHandle => 2
  | .indexError => 3
  | .divideByZero => 4
  | .outOfRange => 5
  | .allocationError => 6

/-- `raise K`, the fault entry of 60_exceptions.md R156: the status becomes `FAULTED(K, fpc)` and
nothing else is written. `fpc` is the value the finger holds now (R157). There is no return from a
fault (R161): only reset leaves it, `State.boot`. -/
def State.raise (s : State) (k : FaultKind) : State := { s with status := .faulted k s.pc }

/-- Runs the rest of an instruction on the result of an operation that may raise. -/
def State.attempt {α : Type} (s : State) (r : Except FaultKind α) (rest : α → State) : Answer :=
  match r with
  | .error k => .next (s.raise k)
  | .ok x => .next (rest x)

/-- `pc <- t`. The target is not checked (40_step.md R88). -/
def State.setPc (s : State) (t : Word) : State := { s with pc := t }

/-- The advance of 40_step.md R82, modulo `2^32` (R86). -/
def State.advance (s : State) : State := s.setPc (s.pc + 1#32)

/-- `status <- st`. -/
def State.setStatus (s : State) (st : Status) : State := { s with status := st }

/-- The state with another Memory Bank. -/
def State.setMem (s : State) (m : Memory) : State := { s with mem := m }

/-- Instruction fetch, `MemRead((0, pc), 1)` (20_memory.md R38). -/
def State.fetch (s : State) : Except FaultKind Word := s.mem.read 0#32 s.pc

/-- `ConsoleWrite(b)`: the byte is appended to the trace (45_console.md R132). -/
def State.consoleWrite (s : State) (b : Byte) : State := { s with out := s.out ++ [b] }

/-- The environment's next answer, where it has supplied one (45_console.md R133, R135). Log 4. -/
def State.nextAnswer (s : State) : Option ConsoleAnswer := s.consoleIn[s.inPos]?

/-- One answer is consumed (45_console.md R133). -/
def State.consumeAnswer (s : State) : State := { s with inPos := s.inPos + 1 }

/-- Whether an `IN` is left waiting, and for which register (45_console.md R135). -/
def State.setWaiting (s : State) (w : Option Reg) : State := { s with waiting := w }

/-- `x[c] <- ConsoleRead()` (45_console.md R131, R133, R135): with an answer supplied, it is consumed
and written and nothing waits any more; with none, nothing is written and the core waits. -/
def State.receive (s : State) (c : Reg) : State :=
  match s.nextAnswer with
  | none => s.setWaiting (some c)
  | some a => (s.consumeAnswer.setReg c (answerValue a)).setWaiting none

/-- The environment supplies one more answer (45_console.md R133, R135). Not an act of the core: it
may happen between any two steps. -/
def State.supply (s : State) (a : ConsoleAnswer) : State := { s with consoleIn := s.consoleIn ++ [a] }

end Sys2Proof.Machine
end

