-- ==== Sys2Proof/Machine/Allocation.lean ====
section
/-! DEFINITION. `ALLOC` and `ABANDON` (44_allocation.md). -/

namespace Sys2Proof.Machine

/-- `ALLOC` (R120): `x[B] <- Allocate(x[C])`. -/
def execAlloc (b c : Reg) (s : State) : Answer :=
  s.attempt (s.mem.allocate s.params (s.reg c)) fun r => (s.setMem r.2).setReg b r.1

/-- `ABANDON` (R121): `Release(x[C])`. -/
def execAbandon (c : Reg) (s : State) : Answer :=
  s.attempt (s.mem.release (s.reg c)) fun m => s.setMem m

end Sys2Proof.Machine
end

