-- ==== Sys2Proof/Machine/Flags.lean ====
section
/-! DEFINITION. The conditions an instruction tests. The UM core has no flags, condition codes or
predicates (10_state.md R21), so no instruction leaves a flag; three instructions test a register. -/

namespace Sys2Proof.Machine

/-- The condition of `CMOV`: any bit set (41_data_movement.md R90). -/
def isNonzero (v : Word) : Bool := decide (v ≠ 0#32)

/-- `OUT` accepts a value up to 255, as an unsigned 32-bit number (45_console.md R130). -/
def fitsByte (v : Word) : Bool := decide (v.toNat ≤ 255)

/-- `DIV` tests its divisor (43_alu.md R112). -/
def isZero (v : Word) : Bool := decide (v = 0#32)

end Sys2Proof.Machine
end

