-- ==== Sys2Proof/Machine/Alu.lean ====
section
/-! DEFINITION. `ADD`, `MUL`, `DIV` and `NAND` (43_alu.md). A result is computed exactly on naturals
and its low 32 bits are kept (R114); none leaves a flag. -/

namespace Sys2Proof.Machine

/-- `(x + y) mod 2^32` (R110). -/
def aluAdd (x y : Word) : Word := BitVec.ofNat 32 (x.toNat + y.toNat)

/-- `(x * y) mod 2^32` (R111). -/
def aluMul (x y : Word) : Word := BitVec.ofNat 32 (x.toNat * y.toNat)

/-- The floor of the unsigned quotient (R112); asked for only with `y` not 0. -/
def aluDiv (x y : Word) : Word := BitVec.ofNat 32 (x.toNat / y.toNat)

/-- `~(x & y)` (R113). -/
def aluNand (x y : Word) : Word := ~~~(x &&& y)

/-- `ADD` (R110). -/
def execAdd (a b c : Reg) (s : State) : Answer :=
  .next (s.setReg a (aluAdd (s.reg b) (s.reg c)))

/-- `MUL` (R111). -/
def execMul (a b c : Reg) (s : State) : Answer :=
  .next (s.setReg a (aluMul (s.reg b) (s.reg c)))

/-- `DIV` (R112): the divisor is tested before anything is written. -/
def execDiv (a b c : Reg) (s : State) : Answer :=
  if isZero (s.reg c) then .next (s.raise .divideByZero)
  else .next (s.setReg a (aluDiv (s.reg b) (s.reg c)))

/-- `NAND` (R113). -/
def execNand (a b c : Reg) (s : State) : Answer :=
  .next (s.setReg a (aluNand (s.reg b) (s.reg c)))

end Sys2Proof.Machine
end

