-- ==== Sys2Proof/Machine/ArrayAccess.lean ====
section
/-! DEFINITION. `AIDX` and `AMEND` (42_array_access.md). -/

namespace Sys2Proof.Machine

/-- `AIDX` (R100): `x[A] <- MemRead((x[B], x[C]), 1)`. -/
def execAidx (a b c : Reg) (s : State) : Answer :=
  s.attempt (s.mem.read (s.reg b) (s.reg c)) fun v => s.setReg a v

/-- `AMEND` (R101): `MemWrite((x[A], x[B]), 1, x[C])`. -/
def execAmend (a b c : Reg) (s : State) : Answer :=
  s.attempt (s.mem.write (s.reg a) (s.reg b) (s.reg c)) fun m => s.setMem m

end Sys2Proof.Machine
end

