-- ==== Sys2Proof/Machine/Console.lean ====
section
/-! DEFINITION. `OUT` and `IN` (45_console.md). -/

namespace Sys2Proof.Machine

/-- `OUT` (R130): the range is tested first, then the byte is emitted. -/
def execOut (c : Reg) (s : State) : Answer :=
  if fitsByte (s.reg c) then .next (s.consoleWrite (lowByte (s.reg c)))
  else .next (s.raise .outOfRange)

/-- `IN` (R131, R135): with an answer supplied it is consumed and written to `x[C]` in this one step
(92_eei_decisions.md D24); with none the core stays `RUNNING` and waits. Log 5. -/
def execInp (c : Reg) (s : State) : Answer := .next (s.receive c)

end Sys2Proof.Machine
end

