-- ==== Sys2Proof/Machine/Control.lean ====
section
/-! DEFINITION. `HALT` and `LOADPROG` (46_control.md). -/

namespace Sys2Proof.Machine

/-- `HALT` (R140). -/
def execHalt (s : State) : Answer := .next (s.setStatus .halted)

/-- `LOADPROG` (R141, R142): the target is read, then the program is swapped (a handle of 0 swaps
nothing), then the finger is set to the target, which is not checked. -/
def execLoadprog (b c : Reg) (s : State) : Answer :=
  s.attempt (s.mem.replaceProgram (s.reg b)) fun m => (s.setMem m).setPc (s.reg c)

end Sys2Proof.Machine
end

