-- ==== Sys2Proof/Machine/DataMovement.lean ====
section
/-! DEFINITION. `CMOV` and `ORTH` (41_data_movement.md). -/

namespace Sys2Proof.Machine

/-- `CMOV` (R90): `x[A] <- x[B]` when `x[C]` is not 0. -/
def execCmov (a b c : Reg) (s : State) : Answer :=
  if isNonzero (s.reg c) then .next (s.setReg a (s.reg b)) else .next s

/-- `ORTH` (R91): `x[S] <- zext_32(IMM)`. -/
def execOrth (d : Reg) (imm : Nat) (s : State) : Answer := .next (s.setReg d (immValue imm))

end Sys2Proof.Machine
end

