-- ==== Sys2Proof/Machine/Dispatch.lean ====
section
/-! DEFINITION. The execute phase: one arm per instruction (40_step.md R83). -/

namespace Sys2Proof.Machine

def exec (i : Instr) (s : State) : Host.Outcome State Fault Refusal :=
  match i with
  | .cmov a b c => Sys2Proof.Machine.execCmov a b c s
  | .aidx a b c => Sys2Proof.Machine.execAidx a b c s
  | .amend a b c => Sys2Proof.Machine.execAmend a b c s
  | .add a b c => Sys2Proof.Machine.execAdd a b c s
  | .mul a b c => Sys2Proof.Machine.execMul a b c s
  | .div a b c => Sys2Proof.Machine.execDiv a b c s
  | .nand a b c => Sys2Proof.Machine.execNand a b c s
  | .halt => Sys2Proof.Machine.execHalt s
  | .alloc b c => Sys2Proof.Machine.execAlloc b c s
  | .abandon c => Sys2Proof.Machine.execAbandon c s
  | .out c => Sys2Proof.Machine.execOut c s
  | .inp c => Sys2Proof.Machine.execInp c s
  | .loadprog b c => Sys2Proof.Machine.execLoadprog b c s
  | .orth d imm => Sys2Proof.Machine.execOrth d imm s

end Sys2Proof.Machine
end

