-- ==== Sys2Proof/Machine/Cycle.lean ====
section
/-! DEFINITION. The four phases of a step, for a core that is running (40_step.md R80). -/

namespace Sys2Proof.Machine

/-- The decode and execute phases on a fetched word, the finger already advanced
(40_step.md R83; 60_exceptions.md R151). -/
def State.runWord (s : State) (w : Word) : Answer :=
  match decode w with
  | .error _ => .next (s.raise .invalidOpcode)
  | .ok i => exec i s

/-- Fetch, advance, decode, execute (40_step.md R80). A fetch that raises does so before the advance
(R81); decode and execute run with the finger advanced (R82). -/
def State.cycle (s : State) : Answer :=
  match s.fetch with
  | .error k => .next (s.raise k)
  | .ok w => s.advance.runWord w

/-- What a running core does next: a new step, or, where an `IN` is waiting, nothing but the rest of
that `IN` (45_console.md R135: "While it waits the core does nothing else"). Log 5. -/
def State.proceed (s : State) : Answer :=
  match s.waiting with
  | none => s.cycle
  | some c => .next (s.receive c)

end Sys2Proof.Machine
end

