-- ==== Sys2Proof/Machine/Image.lean ====
section
/-! DEFINITION. Reset with an image (70_reset_and_hazards.md R170, R171), the image's byte format
(R173), and placing one word where the next fetch reads it. -/

namespace Sys2Proof.Machine

/-- Reset, the one action of the host (70_reset_and_hazards.md R170, R171): every piece of state at
its value of 10_state.md R23, array 0 holding the image word for word. It discards all earlier
state, so it takes none. -/
def State.boot (p : Params) (consoleIn : List ConsoleAnswer) (image : List Word) : State :=
  { regs := Vector.replicate 8 0#32
    pc := 0#32
    status := .running
    mem := { slots := [.live (WordArray.ofWords image)], free := [] }
    out := []
    consoleIn := consoleIn
    inPos := 0
    waiting := none
    params := p }

/-- Why the loader hands over no image. -/
inductive LoadError where
  /-- The byte stream ends in a group of 1 to 3 bytes (70_reset_and_hazards.md R173). The loader's,
  not the core's (60_exceptions.md R166): the core is never started. Safe. -/
  | truncatedImage
deriving DecidableEq, Repr

/-- `IMAGE[k]` from its four bytes, the most significant first (R173). -/
def wordOfBytes (b0 b1 b2 b3 : Byte) : Word :=
  (b0.setWidth 32 <<< 24) ||| (b1.setWidth 32 <<< 16) ||| (b2.setWidth 32 <<< 8) ||| b3.setWidth 32

/-- The words of a byte stream (R173): no header, no padding, every four bytes a word. -/
def loadImage : List Byte → Except LoadError (List Word)
  | [] => .ok []
  | b0 :: b1 :: b2 :: b3 :: rest =>
    match loadImage rest with
    | .ok ws => .ok (wordOfBytes b0 b1 b2 b3 :: ws)
    | .error e => .error e
  | [_] => .error .truncatedImage
  | [_, _] => .error .truncatedImage
  | [_, _, _] => .error .truncatedImage

/-- The byte stream of an image: byte `4k` is bits 31:24 of word `k` (R173). -/
def imageBytes : List Word → List Byte
  | [] => []
  | w :: ws =>
    w.extractLsb' 24 8 :: w.extractLsb' 16 8 :: w.extractLsb' 8 8 :: w.extractLsb' 0 8 :: imageBytes ws

/-- The bank with the word at `(0, i)` set, array 0 made long enough to have an index `i`; an empty
handle table gets a slot 0. Used only to place an instruction (`State.withFetchWord`); no
instruction of the machine does this. -/
def Memory.placeWord (m : Memory) (i : Nat) (w : Word) : Memory :=
  let a := (m.array? 0#32).getD (WordArray.zeros 0)
  let a' := { len := max a.len (i + 1), cells := a.cells : WordArray }.set i w
  match m.slots with
  | [] => { m with slots := [.live a'] }
  | _ :: rest => { m with slots := .live a' :: rest }

/-- `s` with the word of the low `nbits` bits of `w` at `(0, pc)` and the core running, no
`IN` waiting. -/
def State.placeFetchWord (s : State) (nbits w : Nat) : State :=
  { s with
    status := .running
    waiting := none
    mem := s.mem.placeWord s.pc.toNat (BitVec.ofNat 32 (w % Nat.pow 2 nbits)) }

end Sys2Proof.Machine
end

