-- ==== Sys2Proof/Machine/Step.lean ====
section
/-! DEFINITION. The step (40_step.md R80). -/

namespace Sys2Proof.Machine

/-- One step (40_step.md R80): it is taken only while the status is `RUNNING`; in any other status
the core takes no step (log 7). A core that waits in an `IN` goes on waiting or completes it (log 5). -/
def step (s : State) : Host.Outcome State Fault Refusal :=
  match s.status with
  | .halted => .fault .halted
  | .faulted k f => .fault (.faulted k f)
  | .running => s.proceed

/-- `s` with the instruction of `nbits` bits `w` placed where the next step fetches: at `(0, pc)`,
the core running, no `IN` waiting. Stands for a program loaded from outside (log 6). -/
def State.withFetchWord (s : State) (nbits w : Nat) : State := s.placeFetchWord nbits w

end Sys2Proof.Machine
end

