-- ==== Sys2Proof/Safety.lean ====
section
/-! DEFINITION. The terms claims are stated in: the machine's invariant, what a step may change, and
what entering a fault leaves. -/

namespace Sys2Proof.Machine

/-- The word of the standard format (30_encoding.md R61) with operation code `op`, bits 27:9 holding
`x` and the three selectors as given, written as a number. -/
def standardWord (op x : Nat) (a b c : Reg) : Word :=
  BitVec.ofNat 32 (op * 0x10000000 + x * 512 + a.val * 64 + b.val * 8 + c.val)

/-- The word of the immediate format (30_encoding.md R62), written as a number. -/
def immediateWord (d : Reg) (imm : Nat) : Word := BitVec.ofNat 32 (0xD0000000 + d.val * 0x2000000 + imm)

/-- In a fault state the recorded finger is the finger (60_exceptions.md R157: "The finger itself is
left holding the same value"). -/
def State.recordOk (s : State) : Bool :=
  match s.status with
  | .running => true
  | .halted => true
  | .faulted _ fpc => decide (fpc = s.pc)

/-- The console's bookkeeping: no answer is consumed that was not supplied (45_console.md R133), and
only a running core waits for one (R135). -/
def State.consoleOk (s : State) : Bool :=
  decide (s.inPos ≤ s.consoleIn.length) && (s.waiting.isNone || decide (s.status = .running))

/-- The invariants of the machine: the parameters meet 00_scope.md R6, the bank meets 10_state.md
R20, the fault record is right, and so is the console's bookkeeping. -/
abbrev State.Inv (s : State) : Prop :=
  s.params.wf ∧ s.mem.wf ∧ s.mem.fits s.params ∧ s.recordOk = true ∧ s.consoleOk = true

/-- The core stands at an `IN` into register `c`: one that waits, or the next word to fetch. -/
def State.atInput (s : State) (c : Reg) : Prop :=
  s.waiting = some c ∨
  (s.waiting = none ∧ ∃ w, s.mem.read 0#32 s.pc = .ok w ∧ decode w = .ok (.inp c))

/-- The same Memory Bank: every address reads as before (with the same fault where it is one), the
handle table and the free list are the same. -/
def State.SameMemory (s t : State) : Prop :=
  (∀ h i : Word, t.mem.read h i = s.mem.read h i) ∧ t.mem = s.mem

/-- The console traces, what waits, and the parameters are the same. -/
def State.SameConsole (s t : State) : Prop :=
  t.out = s.out ∧ t.inPos = s.inPos ∧ t.consoleIn = s.consoleIn ∧ t.waiting = s.waiting ∧
  t.params = s.params

/-- `t` is `s` with register `r` holding `v`, and nothing else changed. -/
def State.WritesReg (s t : State) (r : Reg) (v : Word) : Prop :=
  t.reg r = v ∧ (∀ q : Reg, q ≠ r → t.reg q = s.reg q) ∧
  t.pc = s.pc ∧ t.status = s.status ∧ s.SameMemory t ∧ s.SameConsole t

/-- `t` is `s` after an `IN` into register `c` has taken the answer `a` (45_console.md R131, R133): one
answer is consumed, its value is in `x[c]`, nothing waits, and nothing else changed. -/
def State.TakesAnswer (s t : State) (c : Reg) (a : ConsoleAnswer) : Prop :=
  (∀ y : Byte, a = .byte y → (t.reg c).toNat = y.toNat) ∧
  (a = .endOfInput → t.reg c = 0xFFFFFFFF#32) ∧
  t.inPos = s.inPos + 1 ∧ t.waiting = none ∧ (∀ q : Reg, q ≠ c → t.reg q = s.reg q) ∧
  t.pc = s.pc ∧ t.status = s.status ∧ s.SameMemory t ∧
  t.out = s.out ∧ t.consoleIn = s.consoleIn ∧ t.params = s.params

/-- Every register, the finger, the status and the console are the same; the bank may differ. -/
def State.OnlyMemoryChanges (s t : State) : Prop :=
  (∀ q : Reg, t.reg q = s.reg q) ∧ t.pc = s.pc ∧ t.status = s.status ∧ s.SameConsole t

/-- `t` is `s` after the fault entry of 60_exceptions.md R156: the status records the kind and the
finger at that moment (R157), and nothing else is written. -/
def State.EntersFault (s t : State) (k : FaultKind) : Prop :=
  t.status = .faulted k s.pc ∧ t.pc = s.pc ∧ (∀ q : Reg, t.reg q = s.reg q) ∧
  s.SameMemory t ∧ s.SameConsole t

/-- The core has stopped: it takes no further step (10_state.md R13). -/
def State.Stopped (s : State) : Prop := ∀ t : State, step s ≠ .next t

end Sys2Proof.Machine
end

