-- ==== Sys2Proof/Certificates/Slice0/Obligations.lean ====
section
/-! DEFINITION. The statements for the provers. Where a docstring says "the spec's decision D<n>", the
clause rests on a choice the spec marks as its own (92_eei_decisions.md), not on a sentence of the
source. -/

open Sys2Proof Sys2Proof.Machine

/-! ### Encoding -/

/-- 30_encoding.md R69, R70: decoding the canonical word of a well-formed instruction gives the
instruction back, with every operand at every value. (The canonical encoder is the spec's decision
D14, the binding of A, B, C its decision D1.) -/
def Obligations.DecodeOfEncodeGivesTheInstruction : Prop :=
  ∀ i : Instr, i.wellFormed = true → decode (encode i) = .ok i

/-- 30_encoding.md R61, R63, R64, R65: the fields of the standard format stand where the spec puts
them, and bits 27:9 and the selectors an operation ignores change nothing. (D1, D2.) -/
def Obligations.StandardFormatFieldPositions : Prop :=
  ∀ (x : Nat) (a b c : Reg), x < 524288 →
    decode (standardWord 0 x a b c) = .ok (.cmov a b c) ∧
    decode (standardWord 1 x a b c) = .ok (.aidx a b c) ∧
    decode (standardWord 2 x a b c) = .ok (.amend a b c) ∧
    decode (standardWord 3 x a b c) = .ok (.add a b c) ∧
    decode (standardWord 4 x a b c) = .ok (.mul a b c) ∧
    decode (standardWord 5 x a b c) = .ok (.div a b c) ∧
    decode (standardWord 6 x a b c) = .ok (.nand a b c) ∧
    decode (standardWord 7 x a b c) = .ok .halt ∧
    decode (standardWord 8 x a b c) = .ok (.alloc b c) ∧
    decode (standardWord 9 x a b c) = .ok (.abandon c) ∧
    decode (standardWord 10 x a b c) = .ok (.out c) ∧
    decode (standardWord 11 x a b c) = .ok (.inp c) ∧
    decode (standardWord 12 x a b c) = .ok (.loadprog b c)

/-- 30_encoding.md R66: the words that are no instruction are exactly those from `0xE0000000` up. -/
def Obligations.InvalidWordsAreTheTwoTopOpcodes : Prop :=
  ∀ w : Word, (∃ e, decode w = .error e) ↔ 0xE0000000 ≤ w.toNat

/-- 30_encoding.md R63, R68: what the decoder answers is well formed and carries the word's operation
code. -/
def Obligations.DecodedInstructionsAreWellFormed : Prop :=
  ∀ (w : Word) (i : Instr), decode w = .ok i → i.wellFormed = true ∧ opField w = i.opcode

/-- A few words written out from 30_encoding.md R61 and R62 (95_test_vectors.md 2.1) decode to the
instructions they stand for. (Which selector is A, B, C: the spec's decision D1, log 8; that bits 27:9
and unused selectors of a word are ignored: its decision D2, log 9.) -/
def Obligations.SampleWordsDecode : Prop :=
  decode 0x00000053#32 = .ok (.cmov 1 2 3) ∧ decode 0x300001A8#32 = .ok (.add 6 5 0) ∧
  decode 0x3ABCDE53#32 = .ok (.add 1 2 3) ∧ decode 0x7FFFFFFF#32 = .ok .halt ∧
  decode 0x800001CA#32 = .ok (.alloc 1 2) ∧ decode 0xC0000017#32 = .ok (.loadprog 2 7) ∧
  decode 0xD7FFFFFF#32 = .ok (.orth 3 33554431) ∧ decode 0xE0000000#32 = .error (.invalidOpcode 14)

/-! ### The step -/

/-- 40_step.md R80, R83: when the word at `(0, pc)` decodes to `i`, a step of a running core that does
not wait in an `IN` is `i` executed with the finger advanced by one and nothing else changed before.
(The advance modulo `2^32`: the spec's decision D7, log 11. A core that waits:
`WaitingInputCompletes` and `InputWithoutAnAnswerWaits`.) -/
def Obligations.StepRunsTheDecodedInstruction : Prop :=
  ∀ (s : State) (w : Word) (i : Instr), s.status = .running → s.waiting = none →
    s.mem.read 0#32 s.pc = .ok w → decode w = .ok i → i.wellFormed = true →
    step s = exec i { s with pc := s.pc + 1#32 }

/-- 40_step.md R80, 10_state.md R13, 93_implementation_defined.md: a core has a next state exactly when
its status is `RUNNING`, whatever the word it fetches and the console answers. (Three choices stand
behind this: a fault entry is a next state, log 7, with the fault status of the spec's decision D3,
log 10; and at an `IN` with no answer supplied the next state is the core waiting, still `RUNNING`,
log 5, where the spec's decision D24 lets no step complete.) -/
def Obligations.CoreStepsExactlyWhileRunning : Prop :=
  ∀ s : State, (∃ t, step s = .next t) ↔ s.status = .running

/-- 40_step.md R81, 60_exceptions.md R153, R157: a fetch at or past the end of array 0 enters the
`IndexError` fault with the finger not advanced. (Fault record: the spec's decisions D3, D4.) -/
def Obligations.FetchPastTheEndFaults : Prop :=
  ∀ (s : State) (a : WordArray), s.status = .running → s.waiting = none → s.mem.array? 0#32 = some a →
    a.len ≤ s.pc.toNat → ∃ t, step s = .next t ∧ s.EntersFault t .indexError

/-- 60_exceptions.md R151, 40_step.md R82: a fetched word with operation code 14 or 15 enters the
`InvalidOpcode` fault, the finger advanced, no register, memory or console effect. (D3, D4.) -/
def Obligations.InvalidOpcodeFaultsAfterTheAdvance : Prop :=
  ∀ (s : State) (w : Word), s.status = .running → s.waiting = none →
    s.mem.read 0#32 s.pc = .ok w → (opField w = 14 ∨ opField w = 15) →
    ∃ t, step s = .next t ∧ ({ s with pc := s.pc + 1#32 } : State).EntersFault t .invalidOpcode

/-- 40_step.md R82: where the finger stands after a word fetched from offset `pc` has run: one past it
after every instruction that is not `LOADPROG`, and after every word that faults in decode or execute
or halts; at `x[C]` after `LOADPROG`. While an `IN` waits or completes, the finger stays (R135). That
a faulting word, a `LOADPROG` of a dead handle included, leaves the finger advanced is 60_exceptions.md
R157 and R159 and 46_control.md R141, the spec's decisions D4, D5 and D9 (logs 10, 11); the advance
modulo `2^32` is its D7. -/
def Obligations.FingerAfterAFetchedWord : Prop :=
  ∀ s t : State, step s = .next t →
    (s.waiting ≠ none → t.pc = s.pc) ∧
    (∀ w, s.waiting = none → s.mem.read 0#32 s.pc = .ok w →
      ((∀ b c, decode w ≠ .ok (.loadprog b c)) → t.pc = s.pc + 1#32) ∧
      (∀ b c, decode w = .ok (.loadprog b c) → t.status = .running → t.pc = s.reg c) ∧
      (t.status ≠ .running → t.pc = s.pc + 1#32))

/-- 60_exceptions.md R157, R159: faults are precise. A step that ends in a fault leaves every
register, the Memory Bank and the console as they were; the recorded finger is the finger, which has
been advanced unless it was the fetch that failed. (D4, D5.) -/
def Obligations.FaultsArePrecise : Prop :=
  ∀ (s t : State) (k : FaultKind) (f : Word), step s = .next t → t.status = .faulted k f →
    (∀ q : Reg, t.reg q = s.reg q) ∧ s.SameMemory t ∧ s.SameConsole t ∧ f = t.pc ∧
    ((∃ e, s.mem.read 0#32 s.pc = .error e) → t.pc = s.pc) ∧
    (∀ w, s.mem.read 0#32 s.pc = .ok w → t.pc = s.pc + 1#32)

/-- 40_step.md R85, 46_control.md R140: a running core leaves `RUNNING` in two ways: it becomes
`HALTED` exactly by a fetched word with operation code 7, or it faults, and then records the finger.
(That there is no other end is the spec's decision D22; that every word with operation code 7 is a
`HALT`, its D2, log 9; the fault status and the recorded finger, its D3 and D4, log 10.) -/
def Obligations.OnlyHaltAndFaultsEndARun : Prop :=
  ∀ s t : State, step s = .next t →
    (t.status = .halted ↔
      s.waiting = none ∧ ∃ w, s.mem.read 0#32 s.pc = .ok w ∧ opField w = 7) ∧
    (t.status = .running ∨ t.status = .halted ∨ ∃ k, t.status = .faulted k t.pc)

/-- 60_exceptions.md R150, R151 to R155, R158: which instruction can raise which fault, and under what
condition. (The handle before the index: D6; the dead handle of `LOADPROG`: D9; what is not admitted:
D8.) -/
def Obligations.FaultsOfEachInstruction : Prop :=
  ∀ (i : Instr) (s t : State) (k : FaultKind) (f : Word), s.status = .running →
    exec i s = .next t → t.status = .faulted k f →
    match k with
    | .invalidOpcode => False
    | .invalidHandle =>
      (∃ a b c, i = .aidx a b c ∧ s.mem.live (s.reg b) = false) ∨
      (∃ a b c, i = .amend a b c ∧ s.mem.live (s.reg a) = false) ∨
      (∃ c, i = .abandon c ∧ (s.reg c = 0#32 ∨ s.mem.live (s.reg c) = false)) ∨
      (∃ b c, i = .loadprog b c ∧ s.reg b ≠ 0#32 ∧ s.mem.live (s.reg b) = false)
    | .indexError =>
      (∃ a b c x, i = .aidx a b c ∧ s.mem.array? (s.reg b) = some x ∧ x.len ≤ (s.reg c).toNat) ∨
      (∃ a b c x, i = .amend a b c ∧ s.mem.array? (s.reg a) = some x ∧ x.len ≤ (s.reg b).toNat)
    | .divideByZero => ∃ a b c, i = .div a b c ∧ s.reg c = 0#32
    | .outOfRange => ∃ c, i = .out c ∧ 255 < (s.reg c).toNat
    | .allocationError => ∃ b c, i = .alloc b c ∧ allocAdmits s.params s.mem (s.reg c) = false

/-! ### Data movement -/

/-- 41_data_movement.md R90: the word of `CMOV`; it writes `x[B]` to `x[A]` unless `x[C]` is 0, and
then changes nothing. (The letters' places in the word: D1.) -/
def Obligations.CmovMovesUnlessZero : Prop :=
  ∀ (a b c : Reg) (s : State), decode (standardWord 0 0 a b c) = .ok (.cmov a b c) ∧
    (s.reg c ≠ 0#32 → ∃ t, exec (.cmov a b c) s = .next t ∧ s.WritesReg t a (s.reg b)) ∧
    (s.reg c = 0#32 → exec (.cmov a b c) s = .next s)

/-- 41_data_movement.md R91: every word `1101 SSS IMM` is `ORTH`; it writes the 25-bit immediate,
zero-extended, to `x[S]`, and the top seven bits of the result are 0. -/
def Obligations.OrthLoadsTheImmediate : Prop :=
  (∀ (d : Reg) (imm : Nat), imm ≤ 33554431 → decode (immediateWord d imm) = .ok (.orth d imm)) ∧
  (∀ (d : Reg) (imm : Nat) (s : State), (Instr.orth d imm).wellFormed = true →
    ∃ t, exec (.orth d imm) s = .next t ∧ s.WritesReg t d (BitVec.ofNat 32 imm) ∧
      (t.reg d).toNat = imm ∧ ∀ k, 25 ≤ k → (t.reg d).getLsbD k = false)

/-! ### Array access -/

/-- 42_array_access.md R100: `AIDX` with a live handle and an index inside the array writes the word
to `x[A]`. -/
def Obligations.AidxLoadsTheWord : Prop :=
  ∀ (a b c : Reg) (s : State) (x : WordArray), s.mem.array? (s.reg b) = some x →
    (s.reg c).toNat < x.len →
    ∃ t, exec (.aidx a b c) s = .next t ∧ s.WritesReg t a (x.get (s.reg c).toNat)

/-- 42_array_access.md R100, 20_memory.md R35, 60_exceptions.md R152, R153: the two faults of `AIDX`,
the handle checked first. (D3, D4, D6.) -/
def Obligations.AidxFaults : Prop :=
  ∀ (a b c : Reg) (s : State),
    (s.mem.live (s.reg b) = false →
      ∃ t, exec (.aidx a b c) s = .next t ∧ s.EntersFault t .invalidHandle) ∧
    (∀ x, s.mem.array? (s.reg b) = some x → x.len ≤ (s.reg c).toNat →
      ∃ t, exec (.aidx a b c) s = .next t ∧ s.EntersFault t .indexError)

/-- 42_array_access.md R101: `AMEND` with a live handle and an index inside the array stores `x[C]` at
`(x[A], x[B])`; every other address reads as before, no length changes, nothing else is written. -/
def Obligations.AmendStoresTheWord : Prop :=
  ∀ (a b c : Reg) (s : State) (x : WordArray), s.mem.array? (s.reg a) = some x →
    (s.reg b).toNat < x.len →
    ∃ t, exec (.amend a b c) s = .next t ∧ s.OnlyMemoryChanges t ∧
      t.mem.read (s.reg a) (s.reg b) = .ok (s.reg c) ∧
      (∀ h i : Word, ¬(h = s.reg a ∧ i = s.reg b) → t.mem.read h i = s.mem.read h i) ∧
      t.mem.free = s.mem.free ∧ t.mem.count = s.mem.count

/-- 42_array_access.md R101, 60_exceptions.md R152, R153: the two faults of `AMEND`; nothing is
stored. (D3, D4, D6.) -/
def Obligations.AmendFaults : Prop :=
  ∀ (a b c : Reg) (s : State),
    (s.mem.live (s.reg a) = false →
      ∃ t, exec (.amend a b c) s = .next t ∧ s.EntersFault t .invalidHandle) ∧
    (∀ x, s.mem.array? (s.reg a) = some x → x.len ≤ (s.reg b).toNat →
      ∃ t, exec (.amend a b c) s = .next t ∧ s.EntersFault t .indexError)

/-- 20_memory.md R52, 42_array_access.md R101: a word stored over the next instruction is what the
next fetch reads. -/
def Obligations.StoredInstructionIsFetched : Prop :=
  ∀ (a b c : Reg) (s : State) (x : WordArray), s.reg a = 0#32 → s.reg b = s.pc →
    s.mem.array? 0#32 = some x → s.pc.toNat < x.len →
    ∃ t, exec (.amend a b c) s = .next t ∧ t.fetch = .ok (s.reg c)

/-! ### ALU -/

/-- 43_alu.md R110: the word of `ADD`; it writes the sum modulo `2^32`. (D1.) -/
def Obligations.AddIsTheSumModulo : Prop :=
  ∀ (a b c : Reg) (s : State), decode (standardWord 3 0 a b c) = .ok (.add a b c) ∧
    ∃ t v, exec (.add a b c) s = .next t ∧ s.WritesReg t a v ∧
    v.toNat = ((s.reg b).toNat + (s.reg c).toNat) % 4294967296

/-- 43_alu.md R111: the word of `MUL`; it writes the low 32 bits of the product. (D1.) -/
def Obligations.MulIsTheProductModulo : Prop :=
  ∀ (a b c : Reg) (s : State), decode (standardWord 4 0 a b c) = .ok (.mul a b c) ∧
    ∃ t v, exec (.mul a b c) s = .next t ∧ s.WritesReg t a v ∧
    v.toNat = ((s.reg b).toNat * (s.reg c).toNat) % 4294967296

/-- 43_alu.md R112: `DIV` by a divisor that is not 0 writes the floor of the unsigned quotient. -/
def Obligations.DivIsTheUnsignedFloor : Prop :=
  ∀ (a b c : Reg) (s : State), s.reg c ≠ 0#32 →
    ∃ t v, exec (.div a b c) s = .next t ∧ s.WritesReg t a v ∧
      v.toNat = (s.reg b).toNat / (s.reg c).toNat

/-- 43_alu.md R112, 60_exceptions.md R154: `DIV` by 0 enters the `DivideByZero` fault, whatever the
dividend. (D3, D4.) -/
def Obligations.DivByZeroFaults : Prop :=
  ∀ (a b c : Reg) (s : State), s.reg c = 0#32 →
    ∃ t, exec (.div a b c) s = .next t ∧ s.EntersFault t .divideByZero

/-- 43_alu.md R113: the word of `NAND`; bit `k` of its result is not (bit `k` of `x[B]` and bit
`k` of `x[C]`). (D1.) -/
def Obligations.NandIsBitwise : Prop :=
  ∀ (a b c : Reg) (s : State), decode (standardWord 6 0 a b c) = .ok (.nand a b c) ∧
    ∃ t v, exec (.nand a b c) s = .next t ∧ s.WritesReg t a v ∧
    ∀ k, k < 32 → v.getLsbD k = !((s.reg b).getLsbD k && (s.reg c).getLsbD k)

/-! ### Allocation and abandonment -/

/-- 44_allocation.md R120, 20_memory.md R39, R40, for every implementation (00_scope.md R6): an
admitted `ALLOC` writes to `x[B]` the top of the free list, or else `N`; the array of that handle is
`x[C]` zero words; every other array is as before. (D8, D13.) -/
def Obligations.AllocGivesAFreshZeroArray : Prop :=
  ∀ (b c : Reg) (s : State), s.Inv → (s.reg c).toNat ≤ s.params.maxArrayWords →
    (s.mem.free = [] → s.mem.count ≠ s.params.capHandles) →
    allocChosen s.params s.mem (s.reg c) = true →
    ∃ t h, exec (.alloc b c) s = .next t ∧
      t.reg b = h ∧ (∀ q : Reg, q ≠ b → t.reg q = s.reg q) ∧
      t.pc = s.pc ∧ t.status = s.status ∧ s.SameConsole t ∧
      ((s.mem.free = h :: t.mem.free ∧ t.mem.count = s.mem.count) ∨
       (s.mem.free = [] ∧ t.mem.free = [] ∧ h.toNat = s.mem.count ∧
         t.mem.count = s.mem.count + 1)) ∧
      (∀ i : Word, t.mem.read h i =
        if i.toNat < (s.reg c).toNat then .ok 0#32 else .error .indexError) ∧
      (∀ g i : Word, g ≠ h → t.mem.read g i = s.mem.read g i)

/-- 44_allocation.md R120, 60_exceptions.md R158, 00_scope.md R6: a request that is not admitted
enters the `AllocationError` fault, the bank and the free list unchanged. A size above
`MAX_ARRAY_WORDS` is never admitted, nor is a request that needs a new handle at
`N = CAP_HANDLES`. (D3, D4, D8.) -/
def Obligations.AllocNotAdmittedFaults : Prop :=
  ∀ (b c : Reg) (s : State),
    (s.params.maxArrayWords < (s.reg c).toNat → allocAdmits s.params s.mem (s.reg c) = false) ∧
    (s.mem.free = [] → s.mem.count = s.params.capHandles →
      allocAdmits s.params s.mem (s.reg c) = false) ∧
    (allocAdmits s.params s.mem (s.reg c) = false →
      ∃ t, exec (.alloc b c) s = .next t ∧ s.EntersFault t .allocationError)

/-- 44_allocation.md R121, 20_memory.md R41, R42: `ABANDON` of a live handle other than 0 makes it the
top of the free list and no longer live; no other array, no register and not `N` changes. -/
def Obligations.AbandonFreesTheHandle : Prop :=
  ∀ (c : Reg) (s : State), s.reg c ≠ 0#32 → s.mem.live (s.reg c) = true →
    ∃ t, exec (.abandon c) s = .next t ∧ s.OnlyMemoryChanges t ∧
      t.mem.free = s.reg c :: s.mem.free ∧ t.mem.count = s.mem.count ∧
      t.mem.live (s.reg c) = false ∧
      (∀ h i : Word, h ≠ s.reg c → t.mem.read h i = s.mem.read h i)

/-- 44_allocation.md R121, 60_exceptions.md R152: `ABANDON` of 0, of a free handle or of one never
allocated enters the `InvalidHandle` fault. (D3, D4.) -/
def Obligations.AbandonFaults : Prop :=
  ∀ (c : Reg) (s : State), (s.reg c = 0#32 ∨ s.mem.live (s.reg c) = false) →
    ∃ t, exec (.abandon c) s = .next t ∧ s.EntersFault t .invalidHandle

/-! ### Console -/

/-- 45_console.md R130, R132: `OUT` of a value up to 255 appends the byte to the trace and changes
nothing else. -/
def Obligations.OutEmitsTheByte : Prop :=
  ∀ (c : Reg) (s : State), (s.reg c).toNat ≤ 255 →
    ∃ t v, exec (.out c) s = .next t ∧ v.toNat = (s.reg c).toNat ∧ t.out = s.out ++ [v] ∧
      (∀ q : Reg, t.reg q = s.reg q) ∧ t.pc = s.pc ∧ t.status = s.status ∧ s.SameMemory t ∧
      t.inPos = s.inPos ∧ t.consoleIn = s.consoleIn ∧ t.waiting = s.waiting ∧ t.params = s.params

/-- 45_console.md R130, 60_exceptions.md R155: `OUT` of a value above 255 enters the `OutOfRange`
fault and emits no byte. (D3, D4.) -/
def Obligations.OutAbove255Faults : Prop :=
  ∀ (c : Reg) (s : State), 255 < (s.reg c).toNat →
    ∃ t, exec (.out c) s = .next t ∧ s.EntersFault t .outOfRange

/-- 45_console.md R131, R133: `IN` with an answer supplied consumes it. A byte enters `x[C]`
zero-extended, end of input as `0xFFFFFFFF`; nothing waits afterwards. (The byte and the answers: the
spec's decision D11, with the answers as data, log 4; one step: its D24, log 5. With no answer
supplied: `InputWithoutAnAnswerWaits`.) -/
def Obligations.InTakesTheAnswer : Prop :=
  ∀ (c : Reg) (s : State) (a : ConsoleAnswer), s.consoleIn[s.inPos]? = some a →
    ∃ t, exec (.inp c) s = .next t ∧ s.TakesAnswer t c a

/-! ### Control -/

/-- 46_control.md R140: every word with operation code 7 is a `HALT`. It makes the status `HALTED`,
changes nothing else, and no further step is taken; run as a step, it leaves the finger one past its
word. (That all such words are one instruction: D2.) -/
def Obligations.HaltStopsTheCore : Prop :=
  (∀ w : Word, opField w = 7 → decode w = .ok .halt) ∧
  (∀ s : State, ∃ t, exec .halt s = .next t ∧ t.status = .halted ∧
    (∀ q : Reg, t.reg q = s.reg q) ∧ t.pc = s.pc ∧ s.SameMemory t ∧ s.SameConsole t ∧
    t.Stopped) ∧
  (∀ (s : State) (w : Word), s.status = .running → s.waiting = none →
    s.mem.read 0#32 s.pc = .ok w → opField w = 7 →
    ∃ t, step s = .next t ∧ t.status = .halted ∧ t.pc = s.pc + 1#32)

/-- 46_control.md R141: `LOADPROG` with a handle of 0 is a jump: the finger becomes `x[C]`, unchecked,
and nothing else changes. -/
def Obligations.LoadprogZeroIsAJump : Prop :=
  ∀ (b c : Reg) (s : State), s.reg b = 0#32 →
    ∃ t, exec (.loadprog b c) s = .next t ∧ t.pc = s.reg c ∧ (∀ q : Reg, t.reg q = s.reg q) ∧
      t.status = s.status ∧ s.SameMemory t ∧ s.SameConsole t

/-- 46_control.md R142 (and R141): with a live handle the program is swapped and the finger set as
one update: array 0 becomes the source array (itself, where the handle is 0), the finger the value
`x[C]` had before, and the next fetch reads the new array 0 there. Every other array, the free list,
`N` and the registers are unchanged (20_memory.md R43, R44 items 1 and 3). That the swap of every live
array succeeds is the spec's decision D10 (R44 item 4, log 11). -/
def Obligations.LoadprogSwapsAndJumps : Prop :=
  ∀ (b c : Reg) (s : State) (x : WordArray), s.mem.array? (s.reg b) = some x →
    ∃ t, exec (.loadprog b c) s = .next t ∧ t.pc = s.reg c ∧ t.mem.array? 0#32 = some x ∧
      t.fetch = (if (s.reg c).toNat < x.len then .ok (x.get (s.reg c).toNat)
        else .error .indexError) ∧
      (∀ q : Reg, t.reg q = s.reg q) ∧ t.status = s.status ∧ s.SameConsole t ∧
      (∀ h i : Word, h ≠ 0#32 → t.mem.read h i = s.mem.read h i) ∧
      t.mem.free = s.mem.free ∧ t.mem.count = s.mem.count

/-- 46_control.md R141, 60_exceptions.md R152, R157: `LOADPROG` with a handle that is not 0 and not
live enters the `InvalidHandle` fault: array 0 is unchanged and the finger is not set to `x[C]`.
(D3, D4, D9.) -/
def Obligations.LoadprogDeadHandleFaults : Prop :=
  ∀ (b c : Reg) (s : State), s.reg b ≠ 0#32 → s.mem.live (s.reg b) = false →
    ∃ t, exec (.loadprog b c) s = .next t ∧ s.EntersFault t .invalidHandle

/-! ### The Memory Bank -/

/-- 20_memory.md R34: `Translate` checks the handle, then the index, on all 32
bits (the handle first: the spec's decision D6), and leads to the word of the array. -/
def Obligations.TranslateChecksHandleThenIndex : Prop :=
  ∀ (m : Memory) (h i : Word),
    (m.live h = false → m.translate h i = .error .invalidHandle) ∧
    (∀ x, m.array? h = some x →
      (x.len ≤ i.toNat → m.translate h i = .error .indexError) ∧
      (i.toNat < x.len → m.translate h i = .ok x ∧ m.read h i = .ok (x.get i.toNat)))

/-- 20_memory.md R37: a write raises exactly what `Translate` raises; one that succeeds sets its cell
and nothing else, neither a length, nor another cell, nor another array, nor the free list. -/
def Obligations.WriteChangesOneCell : Prop :=
  ∀ (m : Memory) (h i v : Word),
    (∀ k, m.write h i v = .error k ↔ m.translate h i = .error k) ∧
    (∀ x, m.translate h i = .ok x → ∃ m' x', m.write h i v = .ok m' ∧
      m'.read h i = .ok v ∧ m'.array? h = some x' ∧ x'.len = x.len ∧
      (∀ g j : Word, ¬(g = h ∧ j = i) → m'.read g j = m.read g j) ∧
      (∀ g : Word, g ≠ h → m'.array? g = m.array? g) ∧
      m'.free = m.free ∧ m'.count = m.count)

/-- 20_memory.md R41: `Release` of 0 or of a handle that is not live raises `InvalidHandle`; any other
makes its slot free and pushes the handle. -/
def Obligations.ReleaseFreesOrRaises : Prop :=
  ∀ (m : Memory) (h : Word),
    ((h = 0#32 ∨ m.live h = false) → m.release h = .error .invalidHandle) ∧
    (h ≠ 0#32 → m.live h = true → ∃ m', m.release h = .ok m' ∧ m'.slots[h.toNat]? = some .free ∧
      m'.free = h :: m.free ∧ ∀ k : Nat, k ≠ h.toNat → m'.slots[k]? = m.slots[k]?)

/-- 20_memory.md R42: after a release every operation on the handle raises `InvalidHandle`, and no
other array is affected. (A free slot holds nothing: the spec's decision D15.) -/
def Obligations.ReleasedHandleIsDead : Prop :=
  ∀ (m m' : Memory) (h : Word), m.release h = .ok m' →
    (∀ i v : Word, m'.read h i = .error .invalidHandle ∧
      m'.write h i v = .error .invalidHandle) ∧
    m'.release h = .error .invalidHandle ∧ m'.replaceProgram h = .error .invalidHandle ∧
    (∀ g : Word, g ≠ h → m'.array? g = m.array? g) ∧ m'.count = m.count

/-- 20_memory.md R40 items 1 and 5: the next allocation after a release, of any size, gives exactly the
released handle, with an array of zeros of the new size, and the free list is as before the
release. -/
def Obligations.AllocationReusesTheLastRelease : Prop :=
  ∀ (p : Params) (m m' : Memory) (h size : Word), m.release h = .ok m' →
    allocAdmits p m' size = true → ∃ m'', m'.allocate p size = .ok (h, m'') ∧
      (∀ i : Word, m''.read h i =
        if i.toNat < size.toNat then .ok 0#32 else .error .indexError) ∧
      m''.free = m.free ∧ m''.count = m.count

/-- 20_memory.md R40 items 2, 3 and 7 (derived there from 10_state.md R20): an allocated handle is not
0, was not live, is live now, and no other handle's array has changed. -/
def Obligations.AllocatedHandleIsFresh : Prop :=
  ∀ (p : Params) (m m' : Memory) (h size : Word), p.wf → m.wf → m.fits p →
    m.allocate p size = .ok (h, m') →
    h ≠ 0#32 ∧ m.live h = false ∧ m'.array? h = some (WordArray.zeros size.toNat) ∧
    ∀ g : Word, g ≠ h → m'.array? g = m.array? g

/-- 20_memory.md R44 items 1 to 3: a program swap is a copy, not an alias. The source stays live with
its contents, and a later write to either array does not show in the other. -/
def Obligations.ProgramSwapIsACopy : Prop :=
  ∀ (m m' : Memory) (h : Word) (x : WordArray), h ≠ 0#32 → m.array? h = some x →
    m.replaceProgram h = .ok m' →
    m'.array? 0#32 = some x ∧ m'.array? h = some x ∧ m'.free = m.free ∧ m'.count = m.count ∧
    (∀ (i v : Word) (m'' : Memory), m'.write 0#32 i v = .ok m'' → m''.array? h = some x) ∧
    (∀ (i v : Word) (m'' : Memory), m'.write h i v = .ok m'' → m''.array? 0#32 = some x)

/-- THE MODEL'S CHOICE (log 1): an array is held as its length and its words that are not 0, and this
form is canonical: two arrays in it with the same length and the same words are equal data. -/
def Obligations.EqualArraysAreEqualData : Prop :=
  ∀ x y : WordArray, x.wf → y.wf → x.len = y.len → (∀ i, i < x.len → x.get i = y.get i) → x = y

/-- THE MODEL'S CHOICE (log 1) against 10_state.md R16: the stored form refines the spec's sequence of
words. Creating, loading and setting are what they are on the sequence. -/
def Obligations.StoredArrayRefinesTheSequence : Prop :=
  (∀ n, (WordArray.zeros n).words = List.replicate n 0#32) ∧
  (∀ ws, (WordArray.ofWords ws).words = ws) ∧
  (∀ (x : WordArray) (i : Nat) (v : Word), (x.set i v).words = x.words.set i v)

/-! ### Reset and the image -/

/-- 70_reset_and_hazards.md R171 (10_state.md R23): what reset with an image leaves. -/
def Obligations.ResetLoadsTheImage : Prop :=
  ∀ (p : Params) (answers : List ConsoleAnswer) (image : List Word),
    (∀ q : Reg, (State.boot p answers image).reg q = 0#32) ∧
    (State.boot p answers image).pc = 0#32 ∧ (State.boot p answers image).status = .running ∧
    (State.boot p answers image).mem.count = 1 ∧ (State.boot p answers image).mem.free = [] ∧
    ∃ x, (State.boot p answers image).mem.array? 0#32 = some x ∧ x.words = image

/-- 10_state.md R20 ("true after reset"): the reset state, and reset with any image that fits
(70_reset_and_hazards.md R175) under any parameters, meet the invariant, with an empty trace (D12) and
the first answer next. THE MODEL'S CHOICES in it: the canonical form of arrays in the invariant (log
1); that `State.reset` has the default parameters (log 2), admits every allocation (log 3), has no
answer supplied (log 4), no `IN` waiting (log 5) and the empty image (log 6). The fault record in the
invariant is the spec's decision D4 (log 10). -/
def Obligations.ResetMeetsTheInvariant : Prop :=
  State.reset.Inv ∧ State.reset = State.boot Params.default [] [] ∧
  ∀ (p : Params) (answers : List ConsoleAnswer) (image : List Word), p.wf →
    image.length ≤ p.maxArrayWords →
    (State.boot p answers image).Inv ∧ (State.boot p answers image).out = [] ∧
    (State.boot p answers image).inPos = 0 ∧ (State.boot p answers image).consoleIn = answers ∧
    (State.boot p answers image).waiting = none ∧ (State.boot p answers image).params = p

/-- 70_reset_and_hazards.md R173: the image's bytes are big-endian groups of four and become the
words of array 0 in order; a stream with a partial group is no image. -/
def Obligations.ImageBytesAreBigEndian : Prop :=
  ∀ bs : List Byte,
    (bs.length % 4 ≠ 0 → loadImage bs = .error .truncatedImage) ∧
    (bs.length % 4 = 0 → ∃ ws, loadImage bs = .ok ws ∧ ws.length = bs.length / 4 ∧
      ∀ (k : Nat) (b0 b1 b2 b3 : Byte), bs[4 * k]? = some b0 → bs[4 * k + 1]? = some b1 →
        bs[4 * k + 2]? = some b2 → bs[4 * k + 3]? = some b3 → ws[k]? = some (b0 ++ b1 ++ b2 ++ b3)) ∧
    (∀ (ws : List Word) (p : Params) (answers : List ConsoleAnswer), loadImage bs = .ok ws →
      ∃ x, (State.boot p answers ws).mem.array? 0#32 = some x ∧ x.words = ws)

/-! ### Every step -/

/-- 10_state.md R20 ("kept by every rule of this spec"), R19, 00_scope.md R6: every step keeps the
invariant: array 0 is live, a slot is free exactly when its handle is on the free list, the free list
has no repeat and not 0, and the bounds hold. Beside these: the recorded finger is the finger
(60_exceptions.md R157, the spec's decision D4, log 10); and THE MODEL'S CHOICES, every array is in
canonical form (log 1), the position in the answers is within those supplied (log 4), and only a
running core waits (log 5). The environment's act of supplying an answer keeps it too. -/
def Obligations.EveryStepKeepsTheInvariant : Prop :=
  (∀ s t : State, s.Inv → step s = .next t → t.Inv) ∧
  ∀ (s : State) (a : ConsoleAnswer), s.Inv → (s.supply a).Inv

/-- 10_state.md R14, R19: `N` never falls, and rises, by one, exactly when an `ALLOC` is admitted while
the free list is empty, so that it mints a handle. (The count: the spec's decision D13; what is
admitted: its D8.) -/
def Obligations.SlotCountNeverFalls : Prop :=
  ∀ s t : State, step s = .next t →
    (t.mem.count = s.mem.count ∨ t.mem.count = s.mem.count + 1) ∧
    (t.mem.count = s.mem.count + 1 ↔
      s.waiting = none ∧ s.mem.free = [] ∧ ∃ w b c, s.mem.read 0#32 s.pc = .ok w ∧
        decode w = .ok (.alloc b c) ∧ allocAdmits s.params s.mem (s.reg c) = true)

/-- 10_state.md R22, 45_console.md R132: a step appends at most one byte to the `OUT` trace, and only
by an `OUT`; nothing emitted is taken back. (D12.) -/
def Obligations.OutTraceOnlyGrows : Prop :=
  ∀ s t : State, step s = .next t → t.out = s.out ∨
    ∃ w c v, s.mem.read 0#32 s.pc = .ok w ∧ decode w = .ok (.out c) ∧ t.out = s.out ++ [v] ∧
      v.toNat = (s.reg c).toNat

/-- 10_state.md R22 ("the core never reads it back"): what a step does does not depend on the `OUT`
trace: from any other trace it does the same and emits the same. -/
def Obligations.OutTraceIsNeverRead : Prop :=
  ∀ (s t : State) (o : List Byte), step s = .next t →
    ∃ e, t.out = s.out ++ e ∧ step { s with out := o } = .next { t with out := o ++ e }

/-- 10_state.md R22, 45_console.md R133, R135, 00_scope.md R6: exactly the `IN` instruction consumes an
answer, one each, and exactly where none is supplied it waits; no step changes the answers or the
parameters. (D11; the wait as a state: log 5.) -/
def Obligations.OneAnswerPerInput : Prop :=
  ∀ s t : State, step s = .next t → t.consoleIn = s.consoleIn ∧ t.params = s.params ∧
    ((∃ c a, s.atInput c ∧ s.consoleIn[s.inPos]? = some a ∧ t.inPos = s.inPos + 1 ∧
        t.waiting = none) ∨
     (∃ c, s.atInput c ∧ s.consoleIn[s.inPos]? = none ∧ t.inPos = s.inPos ∧
        t.waiting = some c) ∨
     ((∀ c, ¬s.atInput c) ∧ t.inPos = s.inPos ∧ t.waiting = none))

/-- 20_memory.md R32, R37, R40, R43, R49: a word that could be read reads the same after a step,
unless the instruction was an `AMEND` at exactly that address, an `ABANDON` of that array, or a
`LOADPROG` that replaced array 0. -/
def Obligations.WordsChangeOnlyByTheirInstructions : Prop :=
  ∀ (s t : State) (h i v : Word), s.Inv → step s = .next t → s.mem.read h i = .ok v →
    t.mem.read h i ≠ .ok v → ∃ w, s.mem.read 0#32 s.pc = .ok w ∧
      ((∃ a b c, decode w = .ok (.amend a b c) ∧ s.reg a = h ∧ s.reg b = i ∧
          t.mem.read h i = .ok (s.reg c)) ∨
       (∃ c, decode w = .ok (.abandon c) ∧ s.reg c = h ∧ t.mem.live h = false) ∨
       (∃ b c, decode w = .ok (.loadprog b c) ∧ h = 0#32 ∧ s.reg b ≠ 0#32))

/-- 40_step.md R86: a fetch at `0xFFFFFFFF` always raises `IndexError`, so the advance never wraps.
(Derived there; fault record D3, D4.) -/
def Obligations.LastOffsetIsNeverFetched : Prop :=
  ∀ s : State, s.Inv → s.status = .running → s.waiting = none → s.pc = 0xFFFFFFFF#32 →
    ∃ t, step s = .next t ∧ s.EntersFault t .indexError

/-- 41_data_movement.md R90, R91, 42_array_access.md R100, 43_alu.md R114, 44_allocation.md R120,
45_console.md R131, 30_encoding.md R64: a register changes only as the destination of the fetched
instruction, or of the `IN` that waited. -/
def Obligations.RegistersChangeOnlyAsDestinations : Prop :=
  ∀ (s t : State) (q : Reg), step s = .next t → t.reg q ≠ s.reg q →
    s.waiting = some q ∨
    (s.waiting = none ∧ ∃ w i, s.mem.read 0#32 s.pc = .ok w ∧ decode w = .ok i ∧
      ((∃ b c, i = .cmov q b c ∨ i = .aidx q b c ∨ i = .add q b c ∨ i = .mul q b c ∨
          i = .div q b c ∨ i = .nand q b c ∨ i = .alloc q c) ∨
        i = .inp q ∨ ∃ n, i = .orth q n))

/-! ### The wait of `IN` -/

/-- 45_console.md R135: `IN` with no answer supplied leaves the core waiting, its status and everything
else as it was (the finger stands where the advance left it); and a core that waits without an answer
stays exactly as it is, `RUNNING`, however often it is stepped. (The wait as a state of the model: log
5, beside the spec's decision D24.) -/
def Obligations.InputWithoutAnAnswerWaits : Prop :=
  (∀ (c : Reg) (s : State), s.consoleIn[s.inPos]? = none →
    ∃ t, exec (.inp c) s = .next t ∧ t.waiting = some c ∧ (∀ q : Reg, t.reg q = s.reg q) ∧
      t.pc = s.pc ∧ t.status = s.status ∧ s.SameMemory t ∧ t.out = s.out ∧ t.inPos = s.inPos ∧
      t.consoleIn = s.consoleIn ∧ t.params = s.params) ∧
  (∀ (c : Reg) (s : State), s.status = .running → s.waiting = some c →
    s.consoleIn[s.inPos]? = none → ∀ n, Sys2Proof.core.run n s = .next s)

/-- 45_console.md R135, R131: a core that waits in an `IN` into `x[C]` does, once an answer is there,
what the `IN` does with it, and fetches nothing. (Log 5.) -/
def Obligations.WaitingInputCompletes : Prop :=
  ∀ (c : Reg) (s : State) (a : ConsoleAnswer), s.status = .running → s.waiting = some c →
    s.consoleIn[s.inPos]? = some a →
    ∃ t, step s = .next t ∧ s.TakesAnswer t c a

/-- 45_console.md R135 and the spec's decision D24 (nothing can observe or interrupt the wait): an `IN`
that waits, is stepped any number of times and is then supplied an answer ends in the very state
of an `IN` for which that answer had been supplied before. (Log 5.) -/
def Obligations.AWaitLeavesNoTrace : Prop :=
  ∀ (c : Reg) (s : State) (a : ConsoleAnswer), s.status = .running → s.waiting = none →
    s.inPos = s.consoleIn.length →
    ∃ u t, exec (.inp c) s = .next u ∧ (∀ n, Sys2Proof.core.run n u = .next u) ∧
      step (u.supply a) = .next t ∧ exec (.inp c) (s.supply a) = .next t
end

