-- ==== Sys2Proof/Laws/Cells.lean ====
section
/-! SUPPORT. The cells of one array: read after write, and the canonical form. -/

namespace Sys2Proof.Machine

/-! ### Reading after a change -/

theorem lookupCell_filter_ne {i j : Nat} (h : j ≠ i) (l : List (Nat × Word)) :
    lookupCell (l.filter (fun c => decide (c.1 ≠ i))) j = lookupCell l j := by
  induction l with
  | nil => rfl
  | cons c t ih =>
    by_cases hc : c.1 = i
    · have : c.1 ≠ j := fun e => h (e.symm.trans hc)
      simpa [hc, lookupCell, h.symm] using ih
    · rw [List.filter_cons_of_pos (by simpa using hc), lookupCell, lookupCell, ih]

theorem lookupCell_of_absent {i : Nat} {l : List (Nat × Word)} (h : ∀ c ∈ l, c.1 ≠ i) :
    lookupCell l i = 0#32 := by
  induction l with
  | nil => rfl
  | cons c t ih =>
    rw [lookupCell, if_neg (h c (by simp)), ih fun d hd => h d (by simp [hd])]

theorem lookupCell_insertCell_same (i : Nat) (v : Word) {l : List (Nat × Word)}
    (h : ∀ c ∈ l, c.1 ≠ i) : lookupCell (insertCell i v l) i = v := by
  induction l with
  | nil => simp [insertCell, lookupCell]
  | cons c t ih =>
    unfold insertCell
    split
    · simp [lookupCell]
    · rw [lookupCell, if_neg (h c (by simp)), ih fun d hd => h d (by simp [hd])]

theorem lookupCell_insertCell_ne {i j : Nat} (h : j ≠ i) (v : Word) (l : List (Nat × Word)) :
    lookupCell (insertCell i v l) j = lookupCell l j := by
  induction l with
  | nil => simp [insertCell, lookupCell, h.symm]
  | cons c t ih =>
    unfold insertCell
    split
    · simp [lookupCell, h.symm]
    · simp [lookupCell, ih]

theorem absent_filter (i : Nat) (l : List (Nat × Word)) :
    ∀ c ∈ l.filter (fun c => decide (c.1 ≠ i)), c.1 ≠ i := by
  intro c hc
  simpa using (List.mem_filter.1 hc).2

/-- A cell read after a cell is stored, in any list of cells. -/
theorem lookupCell_storeCell (l : List (Nat × Word)) (i j : Nat) (v : Word) :
    lookupCell (storeCell l i v) j = if j = i then v else lookupCell l j := by
  by_cases hj : j = i
  · subst hj
    rw [if_pos rfl, storeCell]
    split
    · next hv => rw [lookupCell_of_absent (absent_filter j l), hv]
    · exact lookupCell_insertCell_same j v (absent_filter j l)
  · rw [if_neg hj, storeCell]
    split
    · exact lookupCell_filter_ne hj l
    · rw [lookupCell_insertCell_ne hj, lookupCell_filter_ne hj]

/-- A word of an array read after one is set. -/
theorem WordArray.get_set (a : WordArray) (i j : Nat) (v : Word) :
    (a.set i v).get j = if j = i then v else a.get j :=
  lookupCell_storeCell a.cells i j v

@[simp] theorem WordArray.set_len (a : WordArray) (i : Nat) (v : Word) : (a.set i v).len = a.len :=
  rfl

@[simp] theorem WordArray.zeros_len (n : Nat) : (WordArray.zeros n).len = n := rfl

@[simp] theorem WordArray.zeros_get (n i : Nat) : (WordArray.zeros n).get i = 0#32 := rfl

/-! ### The canonical form is kept -/

theorem mem_insertCell {i : Nat} {v : Word} {l : List (Nat × Word)} {c : Nat × Word}
    (h : c ∈ insertCell i v l) : c = (i, v) ∨ c ∈ l := by
  induction l with
  | nil => simpa [insertCell] using h
  | cons d t ih =>
    unfold insertCell at h
    split at h
    · simpa using h
    · rcases List.mem_cons.1 h with rfl | h
      · simp
      · rcases ih h with h | h <;> simp [h]

theorem pairwise_insertCell {i : Nat} (v : Word) {l : List (Nat × Word)}
    (hl : l.Pairwise (fun c d => c.1 < d.1)) (hi : ∀ c ∈ l, c.1 ≠ i) :
    (insertCell i v l).Pairwise (fun c d => c.1 < d.1) := by
  induction l with
  | nil => simp [insertCell]
  | cons c t ih =>
    have hc := List.pairwise_cons.1 hl
    unfold insertCell
    split
    · next hlt =>
      refine List.pairwise_cons.2 ⟨?_, hl⟩
      intro d hd
      rcases List.mem_cons.1 hd with rfl | hd
      · exact hlt
      · exact lt_trans hlt (hc.1 d hd)
    · next hge =>
      refine List.pairwise_cons.2 ⟨?_, ih hc.2 fun d hd => hi d (by simp [hd])⟩
      intro d hd
      rcases mem_insertCell hd with rfl | hd
      · have := hi c (by simp)
        simp only
        omega
      · exact hc.1 d hd

/-- Setting a word inside an array keeps its canonical form. -/
theorem WordArray.set_wf {a : WordArray} (ha : a.wf) {i : Nat} (hi : i < a.len) (v : Word) :
    (a.set i v).wf := by
  have hs : (a.cells.filter (fun c => decide (c.1 ≠ i))).Pairwise (fun c d => c.1 < d.1) :=
    ha.1.filter _
  have hm : ∀ c ∈ a.cells.filter (fun c => decide (c.1 ≠ i)), c.1 < a.len ∧ c.2 ≠ 0#32 :=
    fun c hc => ha.2 c (List.mem_of_mem_filter hc)
  unfold WordArray.set storeCell WordArray.wf
  by_cases hv : v = 0#32
  · simpa [hv] using And.intro hs hm
  · simp only [hv, if_false]
    refine ⟨pairwise_insertCell v hs (absent_filter i a.cells), fun c hc => ?_⟩
    rcases mem_insertCell hc with rfl | hc
    · exact ⟨hi, hv⟩
    · exact hm c hc

theorem WordArray.zeros_wf (n : Nat) : (WordArray.zeros n).wf :=
  ⟨List.Pairwise.nil, by simp [WordArray.zeros]⟩

/-! ### An array made from words -/

theorem cellsOfWords_bounds (ws : List Word) (base : Nat) :
    ∀ c ∈ cellsOfWords base ws, base ≤ c.1 ∧ c.1 < base + ws.length ∧ c.2 ≠ 0#32 := by
  induction ws generalizing base with
  | nil => simp [cellsOfWords]
  | cons w t ih =>
    intro c hc
    unfold cellsOfWords at hc
    split at hc
    · have := ih (base + 1) c hc
      simp only [List.length_cons]
      exact ⟨by omega, by omega, this.2.2⟩
    · next hw =>
      rcases List.mem_cons.1 hc with rfl | hc
      · simpa using hw
      · have := ih (base + 1) c hc
        simp only [List.length_cons]
        exact ⟨by omega, by omega, this.2.2⟩

theorem cellsOfWords_pairwise (ws : List Word) (base : Nat) :
    (cellsOfWords base ws).Pairwise (fun c d => c.1 < d.1) := by
  induction ws generalizing base with
  | nil => simp [cellsOfWords]
  | cons w t ih =>
    unfold cellsOfWords
    split
    · exact ih (base + 1)
    · refine List.pairwise_cons.2 ⟨fun d hd => ?_, ih (base + 1)⟩
      have := (cellsOfWords_bounds t (base + 1) d hd).1
      simp only
      omega

theorem WordArray.ofWords_wf (ws : List Word) : (WordArray.ofWords ws).wf :=
  ⟨cellsOfWords_pairwise ws 0, fun c hc => by
    have := cellsOfWords_bounds ws 0 c hc
    exact ⟨by simpa [WordArray.ofWords] using this.2.1, this.2.2⟩⟩

theorem lookupCell_cellsOfWords (ws : List Word) (base k : Nat) :
    lookupCell (cellsOfWords base ws) (base + k) = (ws[k]?).getD 0#32 := by
  induction ws generalizing base k with
  | nil => simp [cellsOfWords, lookupCell]
  | cons w t ih =>
    have hb : ∀ c ∈ cellsOfWords (base + 1) t, c.1 ≠ base := fun c hc => by
      have := (cellsOfWords_bounds t (base + 1) c hc).1
      omega
    cases k with
    | zero =>
      unfold cellsOfWords
      split
      · next hw => simpa [hw] using lookupCell_of_absent hb
      · simp [lookupCell]
    | succ k =>
      have e : base + (k + 1) = base + 1 + k := by omega
      have ih' := ih (base + 1) k
      unfold cellsOfWords
      split
      · rw [e, ih']; simp
      · rw [lookupCell, if_neg (by simp only; omega), e, ih']; simp

/-- Word `k` of an array made from words is word `k`. -/
theorem WordArray.ofWords_get (ws : List Word) (k : Nat) :
    (WordArray.ofWords ws).get k = (ws[k]?).getD 0#32 := by
  simpa [WordArray.ofWords, WordArray.get] using lookupCell_cellsOfWords ws 0 k

@[simp] theorem WordArray.ofWords_len (ws : List Word) : (WordArray.ofWords ws).len = ws.length := rfl

end Sys2Proof.Machine
end

