-- ==== Sys2Proof/Laws/Decode.lean ====
section
/-! SUPPORT. The operation code of an encoded word (30_encoding.md R63, R70). -/

namespace Sys2Proof

/-- A register number has no bit at or above bit 3. -/
theorem reg_getLsbD (r : Reg) {i : Nat} (hi : 3 ≤ i) : (BitVec.ofNat 32 r.val).getLsbD i = false := by
  rw [BitVec.getLsbD_ofNat]
  have : r.val < 2 ^ i := lt_of_lt_of_le r.isLt (Nat.pow_le_pow_right (n := 2) (by decide) hi)
  simp [Nat.testBit_lt_two_pow this]

/-- The operation code of a word in the standard format. -/
theorem opField_encodeStd (op : Nat) (a b c : Reg) :
    opField (encodeStd op a b c) = BitVec.ofNat 4 op := by
  ext i hi
  have h1 := reg_getLsbD a (i := 28 + i - 6) (by omega)
  have h2 := reg_getLsbD b (i := 28 + i - 3) (by omega)
  have h3 := reg_getLsbD c (i := 28 + i) (by omega)
  have hl : 28 + i < 32 := by omega
  simp only [opField, encodeStd, BitVec.getElem_extractLsb', BitVec.getLsbD_or,
    BitVec.getLsbD_shiftLeft, h1, h2, h3, Bool.and_false, Bool.or_false]
  have h32 : i < 32 := by omega
  simp [hl, h32, ← BitVec.getLsbD_eq_getElem, BitVec.getLsbD_ofNat, hi]

theorem opThirteen : ∀ i : Fin 4, (13#4)[i] = (13#32).getLsbD i := by decide

/-- The operation code of a word in the immediate format. -/
theorem opField_encodeImm (s : Reg) (imm : BitVec 25) : opField (encodeImm s imm) = 13 := by
  ext i hi
  have h1 := reg_getLsbD s (i := 28 + i - 25) (by omega)
  have h2 : (imm.setWidth 32).getLsbD (28 + i) = false := by
    rw [BitVec.getLsbD_setWidth, BitVec.getLsbD_of_ge imm (28 + i) (by omega), Bool.and_false]
  have hl : 28 + i < 32 := by omega
  simp only [opField, encodeImm, BitVec.getElem_extractLsb', BitVec.getLsbD_or,
    BitVec.getLsbD_shiftLeft, h1, h2, Bool.and_false, Bool.or_false]
  simpa [hl] using (opThirteen ⟨i, hi⟩).symm

end Sys2Proof
end

