-- ==== Sys2Proof/Laws/Memory.lean ====
section
/-! SUPPORT. What each operation of the Memory Bank can do, said once, and that each keeps the bank's
invariants (20_memory.md R33 to R44; 10_state.md R20). -/

namespace Sys2Proof.Machine

/-! ### Handle lookup -/

theorem Memory.array?_eq_some {m : Memory} {h : Word} {a : WordArray} :
    m.array? h = some a ↔ m.slots[h.toNat]? = some (.live a) := by
  unfold Memory.array?
  cases hs : m.slots[h.toNat]? with
  | none => simp
  | some x => cases x <;> simp [Slot.array?]

/-- A live handle names a slot of the table (20_memory.md R33). -/
theorem Memory.lt_count_of_array? {m : Memory} {h : Word} {a : WordArray}
    (ha : m.array? h = some a) : h.toNat < m.count := by
  obtain ⟨hl, -⟩ := List.getElem?_eq_some_iff.1 (Memory.array?_eq_some.1 ha)
  exact hl

theorem Memory.live_eq_true {m : Memory} {h : Word} : m.live h = true ↔ ∃ a, m.array? h = some a :=
  Option.isSome_iff_exists

theorem Memory.live_eq_false {m : Memory} {h : Word} : m.live h = false ↔ m.array? h = none := by
  simp [Memory.live]

theorem Memory.mem_arrays {m : Memory} {a : WordArray} : a ∈ m.arrays ↔ Slot.live a ∈ m.slots := by
  unfold Memory.arrays
  rw [List.mem_filterMap]
  constructor
  · rintro ⟨x, hx, ha⟩
    cases x with
    | live b => simp only [Slot.array?, Option.some.injEq] at ha; exact ha ▸ hx
    | free => simp [Slot.array?] at ha
  · exact fun h => ⟨_, h, rfl⟩

theorem Memory.mem_arrays_of_array? {m : Memory} {h : Word} {a : WordArray}
    (ha : m.array? h = some a) : a ∈ m.arrays :=
  Memory.mem_arrays.2 (List.mem_of_getElem? (Memory.array?_eq_some.1 ha))

theorem Memory.freeListed_iff {m : Memory} :
    m.freeListed = true ↔ ∀ h ∈ m.free, h ≠ 0#32 ∧ m.slots[h.toNat]? = some .free := by
  simp [Memory.freeListed]

/-! ### Changing the handle table -/

/-- The array of any handle after the slot of one is set. -/
theorem Memory.array?_set (m : Memory) (h k : Word) (x : Slot) (f : List Word) :
    ({ slots := m.slots.set h.toNat x, free := f } : Memory).array? k =
      if k = h ∧ h.toNat < m.count then x.array? else m.array? k := by
  unfold Memory.array? Memory.count
  by_cases hk : k = h
  · subst hk
    by_cases hl : k.toNat < m.slots.length
    · simp [hl]
    · simp [hl]
  · have : h.toNat ≠ k.toNat := fun e => hk (BitVec.eq_of_toNat_eq e.symm)
    simp [hk, this]

theorem Memory.array?_setArray (m : Memory) (h k : Word) (a : WordArray) :
    (m.setArray h a).array? k = if k = h ∧ h.toNat < m.count then some a else m.array? k :=
  Memory.array?_set m h k (.live a) m.free

@[simp] theorem Memory.setArray_free (m : Memory) (h : Word) (a : WordArray) :
    (m.setArray h a).free = m.free := rfl

@[simp] theorem Memory.setArray_count (m : Memory) (h : Word) (a : WordArray) :
    (m.setArray h a).count = m.count := by simp [Memory.setArray, Memory.count]

/-- The array of any handle after the table has grown by one slot. -/
theorem Memory.array?_append {m : Memory} (hm : m.count < 4294967296) (k : Word) (a : WordArray)
    (f : List Word) :
    ({ slots := m.slots ++ [.live a], free := f } : Memory).array? k =
      if k = BitVec.ofNat 32 m.count then some a else m.array? k := by
  unfold Memory.count at hm
  unfold Memory.array? Memory.count
  by_cases hk : k = BitVec.ofNat 32 m.slots.length
  · have e : k.toNat = m.slots.length := by rw [hk, BitVec.toNat_ofNat, Nat.mod_eq_of_lt hm]
    rw [if_pos hk]
    simp [e, Slot.array?]
  · rw [if_neg hk]
    have e : k.toNat ≠ m.slots.length := fun e => hk (by rw [← e, BitVec.ofNat_toNat]; simp)
    rw [List.getElem?_append]
    split
    · rfl
    · next hge =>
      have : m.slots[k.toNat]? = none := List.getElem?_eq_none (by omega)
      rw [this, List.getElem?_eq_none (by simp only [List.length_singleton]; omega)]

/-! ### Translation, read and write: what each answers -/

/-- `Translate` answers the array, and the index lies inside it (20_memory.md R34). -/
theorem Memory.translate_eq_ok {m : Memory} {h i : Word} {a : WordArray} :
    m.translate h i = .ok a ↔ m.array? h = some a ∧ i.toNat < a.len := by
  unfold Memory.translate
  cases hm : m.array? h with
  | none => simp
  | some b =>
    simp only
    split
    · next hl => simp only [reduceCtorEq, Option.some.injEq, false_iff]; rintro ⟨rfl, h⟩; omega
    · next hl =>
      simp only [Except.ok.injEq, Option.some.injEq]
      constructor
      · rintro rfl; exact ⟨rfl, by omega⟩
      · exact fun h => h.1

/-- When `Translate` raises, and what (20_memory.md R34, R35). -/
theorem Memory.translate_eq_error {m : Memory} {h i : Word} {k : FaultKind} :
    m.translate h i = .error k ↔
      (k = .invalidHandle ∧ m.array? h = none) ∨
      (k = .indexError ∧ ∃ a, m.array? h = some a ∧ a.len ≤ i.toNat) := by
  unfold Memory.translate
  cases hm : m.array? h with
  | none => simp [eq_comm]
  | some b =>
    simp only
    split
    · next hl => simp [hl, eq_comm]
    · next hl => simp [hl]

theorem Memory.read_eq_ok {m : Memory} {h i v : Word} :
    m.read h i = .ok v ↔ ∃ a, m.array? h = some a ∧ i.toNat < a.len ∧ a.get i.toNat = v := by
  unfold Memory.read
  cases ht : m.translate h i with
  | error k =>
    simp only [reduceCtorEq, false_iff, not_exists]
    rintro a ⟨ha, hi, -⟩
    rw [Memory.translate_eq_ok.2 ⟨ha, hi⟩] at ht
    cases ht
  | ok a =>
    have := Memory.translate_eq_ok.1 ht
    simp [this.1, this.2]

/-- A read raises exactly what `Translate` raises (20_memory.md R36). -/
theorem Memory.read_eq_error {m : Memory} {h i : Word} {k : FaultKind} :
    m.read h i = .error k ↔ m.translate h i = .error k := by
  unfold Memory.read
  cases m.translate h i <;> simp

/-- What a write that succeeds answers (20_memory.md R37). -/
theorem Memory.write_eq_ok {m m' : Memory} {h i v : Word} :
    m.write h i v = .ok m' ↔
      ∃ a, m.array? h = some a ∧ i.toNat < a.len ∧ m' = m.setArray h (a.set i.toNat v) := by
  unfold Memory.write
  cases ht : m.translate h i with
  | error k =>
    simp only [reduceCtorEq, false_iff, not_exists]
    rintro a ⟨ha, hi, -⟩
    rw [Memory.translate_eq_ok.2 ⟨ha, hi⟩] at ht
    cases ht
  | ok a =>
    have := Memory.translate_eq_ok.1 ht
    simp [this.1, this.2, eq_comm]

/-- A write raises exactly what `Translate` raises (20_memory.md R37). -/
theorem Memory.write_eq_error {m : Memory} {h i v : Word} {k : FaultKind} :
    m.write h i v = .error k ↔ m.translate h i = .error k := by
  unfold Memory.write
  cases m.translate h i <;> simp

/-! ### Allocation, release, program swap: what each answers -/

/-- What an allocation that succeeds answers (20_memory.md R39). -/
theorem Memory.allocate_eq_ok {p : Params} {m m' : Memory} {size h : Word} :
    m.allocate p size = .ok (h, m') ↔
      allocAdmits p m size = true ∧
      ((∃ rest, m.free = h :: rest ∧
          m' = { slots := m.slots.set h.toNat (.live (WordArray.zeros size.toNat)), free := rest }) ∨
       (m.free = [] ∧ h = BitVec.ofNat 32 m.count ∧
          m' = { slots := m.slots ++ [.live (WordArray.zeros size.toNat)], free := [] })) := by
  unfold Memory.allocate
  by_cases ha : allocAdmits p m size = true
  · rw [if_pos ha]
    cases hf : m.free with
    | nil => simp [ha, eq_comm]
    | cons g rest =>
      simp only [Except.ok.injEq, Prod.mk.injEq, ha, true_and, List.cons.injEq, reduceCtorEq,
        false_and, or_false]
      constructor
      · rintro ⟨rfl, rfl⟩; exact ⟨rest, ⟨rfl, rfl⟩, rfl⟩
      · rintro ⟨_, ⟨rfl, rfl⟩, rfl⟩; exact ⟨rfl, rfl⟩
  · simp [ha]

/-- An allocation raises `AllocationError`, exactly when it is not admitted (20_memory.md R39). -/
theorem Memory.allocate_eq_error {p : Params} {m : Memory} {size : Word} {k : FaultKind} :
    m.allocate p size = .error k ↔ k = .allocationError ∧ allocAdmits p m size = false := by
  unfold Memory.allocate
  by_cases ha : allocAdmits p m size = true
  · rw [if_pos ha]
    cases m.free <;> simp [ha]
  · simp [ha, eq_comm]

theorem Memory.release_eq_ok {m m' : Memory} {h : Word} :
    m.release h = .ok m' ↔
      h ≠ 0#32 ∧ m.live h = true ∧ m' = { slots := m.slots.set h.toNat .free, free := h :: m.free } := by
  unfold Memory.release
  by_cases h0 : h = 0#32
  · simp [h0]
  · cases hl : m.live h <;> simp [h0, eq_comm (α := Memory)]

theorem Memory.release_eq_error {m : Memory} {h : Word} {k : FaultKind} :
    m.release h = .error k ↔ k = .invalidHandle ∧ (h = 0#32 ∨ m.live h = false) := by
  unfold Memory.release
  split
  · next hc => simp only [Except.error.injEq, hc, and_true, eq_comm (α := FaultKind)]
  · next hc => simp only [reduceCtorEq, hc, and_false]

theorem Memory.replaceProgram_eq_ok {m m' : Memory} {h : Word} :
    m.replaceProgram h = .ok m' ↔
      (h = 0#32 ∧ m' = m) ∨ (h ≠ 0#32 ∧ ∃ a, m.array? h = some a ∧ m' = m.setArray 0#32 a) := by
  unfold Memory.replaceProgram
  by_cases h0 : h = 0#32
  · simp [h0, eq_comm (α := Memory)]
  · cases ha : m.array? h <;> simp [h0, eq_comm (α := Memory)]

theorem Memory.replaceProgram_eq_error {m : Memory} {h : Word} {k : FaultKind} :
    m.replaceProgram h = .error k ↔ k = .invalidHandle ∧ h ≠ 0#32 ∧ m.array? h = none := by
  unfold Memory.replaceProgram
  by_cases h0 : h = 0#32
  · simp [h0]
  · cases ha : m.array? h <;> simp [h0, eq_comm (α := FaultKind)]

/-! ### Which requests are admitted -/

theorem allocAdmits_eq_true {p : Params} {m : Memory} {size : Word} :
    allocAdmits p m size = true ↔
      size.toNat ≤ p.maxArrayWords ∧ (m.free = [] → m.count ≠ p.capHandles) ∧
        allocChosen p m size = true := by
  unfold allocAdmits
  cases hf : m.free <;> simp [and_assoc]

/-- With the policy of 00_scope.md R6's default nothing is refused but what is forced. -/
theorem allocChosen_of_admitAll {p : Params} (hp : p.policy = .admitAll) (m : Memory) (size : Word) :
    allocChosen p m size = true := by simp [allocChosen, hp]

/-! ### Every operation keeps the bank's invariants -/

/-- Replacing the array of a live handle by a canonical one keeps the invariants. -/
theorem Memory.setArray_wf {m : Memory} (hm : m.wf) {h : Word} (hl : m.live h = true) {a : WordArray}
    (ha : a.wf) : (m.setArray h a).wf := by
  obtain ⟨h0, hfree, hlist, hnd, harr⟩ := hm
  obtain ⟨b, hb⟩ := Memory.live_eq_true.1 hl
  have hslot := Memory.array?_eq_some.1 hb
  refine ⟨?_, ?_, ?_, hnd, ?_⟩
  · rw [Memory.live, Memory.array?_setArray]
    split
    · rfl
    · exact h0
  · intro k hk hs
    simp only [Memory.setArray, List.length_set] at hk
    simp only [Memory.setArray, List.getElem?_set] at hs
    split at hs
    · next e => subst e; simp [hk] at hs
    · exact hfree k hk hs
  · refine Memory.freeListed_iff.2 fun g hg => ?_
    have hg' := Memory.freeListed_iff.1 hlist g hg
    refine ⟨hg'.1, ?_⟩
    have hne : h.toNat ≠ g.toNat := fun e => by rw [e, hg'.2] at hslot; cases hslot
    simpa [Memory.setArray, List.getElem?_set, hne] using hg'.2
  · intro c hc
    rcases List.mem_or_eq_of_mem_set (Memory.mem_arrays.1 hc) with hc | hc
    · exact harr c (Memory.mem_arrays.2 hc)
    · cases hc; exact ha

theorem Memory.setArray_fits {p : Params} {m : Memory} (hm : m.fits p) {h : Word} {a : WordArray}
    (ha : a.len ≤ p.maxArrayWords) : (m.setArray h a).fits p := by
  refine ⟨by simpa using hm.1, fun c hc => ?_⟩
  rcases List.mem_or_eq_of_mem_set (Memory.mem_arrays.1 hc) with hc | hc
  · exact hm.2 c (Memory.mem_arrays.2 hc)
  · cases hc; exact ha

theorem Memory.write_wf {m m' : Memory} {h i v : Word} (hm : m.wf) (hw : m.write h i v = .ok m') :
    m'.wf := by
  obtain ⟨a, ha, hi, rfl⟩ := Memory.write_eq_ok.1 hw
  exact Memory.setArray_wf hm (Memory.live_eq_true.2 ⟨a, ha⟩)
    (WordArray.set_wf (hm.2.2.2.2 a (Memory.mem_arrays_of_array? ha)) hi v)

theorem Memory.write_fits {p : Params} {m m' : Memory} {h i v : Word} (hm : m.fits p)
    (hw : m.write h i v = .ok m') : m'.fits p := by
  obtain ⟨a, ha, -, rfl⟩ := Memory.write_eq_ok.1 hw
  exact Memory.setArray_fits hm (hm.2 a (Memory.mem_arrays_of_array? ha))

theorem Memory.replaceProgram_wf {m m' : Memory} {h : Word} (hm : m.wf)
    (hr : m.replaceProgram h = .ok m') : m'.wf := by
  rcases Memory.replaceProgram_eq_ok.1 hr with ⟨-, rfl⟩ | ⟨-, a, ha, rfl⟩
  · exact hm
  · exact Memory.setArray_wf hm hm.1 (hm.2.2.2.2 a (Memory.mem_arrays_of_array? ha))

theorem Memory.replaceProgram_fits {p : Params} {m m' : Memory} {h : Word} (hm : m.fits p)
    (hr : m.replaceProgram h = .ok m') : m'.fits p := by
  rcases Memory.replaceProgram_eq_ok.1 hr with ⟨-, rfl⟩ | ⟨-, a, ha, rfl⟩
  · exact hm
  · exact Memory.setArray_fits hm (hm.2 a (Memory.mem_arrays_of_array? ha))

theorem Memory.release_wf {m m' : Memory} {h : Word} (hm : m.wf) (hr : m.release h = .ok m') :
    m'.wf := by
  obtain ⟨h0, hl, rfl⟩ := Memory.release_eq_ok.1 hr
  obtain ⟨hz, hfree, hlist, hnd, harr⟩ := hm
  obtain ⟨b, hb⟩ := Memory.live_eq_true.1 hl
  have hslot := Memory.array?_eq_some.1 hb
  have hlt : h.toNat < m.slots.length := Memory.lt_count_of_array? hb
  refine ⟨?_, ?_, ?_, ?_, ?_⟩
  · rw [Memory.live, Memory.array?_set, if_neg (fun e => h0 e.1.symm)]
    exact hz
  · intro k hk hs
    simp only [List.length_set] at hk
    simp only [List.getElem?_set] at hs
    split at hs
    · next e => subst e; simp [BitVec.ofNat_toNat]
    · exact List.mem_cons_of_mem _ (hfree k hk hs)
  · refine Memory.freeListed_iff.2 fun g hg => ?_
    rcases List.mem_cons.1 hg with rfl | hg
    · exact ⟨h0, by simp [hlt]⟩
    · have hg' := Memory.freeListed_iff.1 hlist g hg
      refine ⟨hg'.1, ?_⟩
      have hne : h.toNat ≠ g.toNat := fun e => by rw [e, hg'.2] at hslot; cases hslot
      simpa [List.getElem?_set, hne] using hg'.2
  · refine List.nodup_cons.2 ⟨fun hmem => ?_, hnd⟩
    rw [(Memory.freeListed_iff.1 hlist h hmem).2] at hslot
    cases hslot
  · intro c hc
    rcases List.mem_or_eq_of_mem_set (Memory.mem_arrays.1 hc) with hc | hc
    · exact harr c (Memory.mem_arrays.2 hc)
    · cases hc

theorem Memory.release_fits {p : Params} {m m' : Memory} {h : Word} (hm : m.fits p)
    (hr : m.release h = .ok m') : m'.fits p := by
  obtain ⟨-, -, rfl⟩ := Memory.release_eq_ok.1 hr
  refine ⟨by simpa [Memory.count] using hm.1, fun c hc => ?_⟩
  rcases List.mem_or_eq_of_mem_set (Memory.mem_arrays.1 hc) with hc | hc
  · exact hm.2 c (Memory.mem_arrays.2 hc)
  · cases hc

theorem Memory.allocate_wf {p : Params} {m m' : Memory} {size h : Word} (hp : p.wf) (hm : m.wf)
    (hf : m.fits p) (ha : m.allocate p size = .ok (h, m')) : m'.wf := by
  obtain ⟨hz, hfree, hlist, hnd, harr⟩ := hm
  have hcount : m.slots.length ≤ 4294967296 := le_trans hf.1 hp.2.1
  obtain ⟨hadm, ⟨rest, hfr, rfl⟩ | ⟨hfr, rfl, rfl⟩⟩ := Memory.allocate_eq_ok.1 ha
  · rw [hfr] at hfree hnd
    have hh := Memory.freeListed_iff.1 hlist h (by simp [hfr])
    have hlt : h.toNat < m.slots.length := (List.getElem?_eq_some_iff.1 hh.2).1
    refine ⟨?_, ?_, ?_, (List.nodup_cons.1 hnd).2, ?_⟩
    · rw [Memory.live, Memory.array?_set, if_neg (fun e => hh.1 e.1.symm)]
      exact hz
    · intro k hk hs
      simp only [List.length_set] at hk
      simp only [List.getElem?_set] at hs
      split at hs
      · next e => subst e; simp at hs
      · next hne =>
        refine (List.mem_cons.1 (hfree k hk hs)).resolve_left fun e => hne ?_
        rw [← e, BitVec.toNat_ofNat, Nat.mod_eq_of_lt (by omega)]
    · refine Memory.freeListed_iff.2 fun g hg => ?_
      have hg' := Memory.freeListed_iff.1 hlist g (by simp [hfr, hg])
      have hne : h.toNat ≠ g.toNat := fun e =>
        (List.nodup_cons.1 hnd).1 (BitVec.eq_of_toNat_eq e ▸ hg)
      exact ⟨hg'.1, by simpa [List.getElem?_set, hne] using hg'.2⟩
    · intro c hc
      rcases List.mem_or_eq_of_mem_set (Memory.mem_arrays.1 hc) with hc | hc
      · exact harr c (Memory.mem_arrays.2 hc)
      · cases hc; exact WordArray.zeros_wf _
  · refine ⟨?_, ?_, by simp [Memory.freeListed], List.nodup_nil, ?_⟩
    · have hlt : m.count < 4294967296 := by
        have hne := (allocAdmits_eq_true.1 hadm).2.1 hfr
        have := hf.1
        have := hp.2.1
        omega
      rw [Memory.live, Memory.array?_append hlt]
      split
      · rfl
      · exact hz
    · intro k hk hs
      simp only [List.length_append, List.length_singleton] at hk
      rw [List.getElem?_append] at hs
      split at hs
      · next hlt => exact absurd (hfree k hlt hs) (by simp [hfr])
      · next hge =>
        have e : k - m.slots.length = 0 := by omega
        rw [e] at hs
        simp at hs
    · intro c hc
      rcases List.mem_append.1 (Memory.mem_arrays.1 hc) with hc | hc
      · exact harr c (Memory.mem_arrays.2 hc)
      · simp only [List.mem_singleton, Slot.live.injEq] at hc
        exact hc ▸ WordArray.zeros_wf _

theorem Memory.allocate_fits {p : Params} {m m' : Memory} {size h : Word} (hf : m.fits p)
    (ha : m.allocate p size = .ok (h, m')) : m'.fits p := by
  obtain ⟨hadm, ⟨rest, -, rfl⟩ | ⟨hfr, rfl, rfl⟩⟩ := Memory.allocate_eq_ok.1 ha
  · refine ⟨by simpa [Memory.count] using hf.1, fun c hc => ?_⟩
    rcases List.mem_or_eq_of_mem_set (Memory.mem_arrays.1 hc) with hc | hc
    · exact hf.2 c (Memory.mem_arrays.2 hc)
    · cases hc; exact (allocAdmits_eq_true.1 hadm).1
  · refine ⟨?_, fun c hc => ?_⟩
    · have hne := (allocAdmits_eq_true.1 hadm).2.1 hfr
      have := hf.1
      simp only [Memory.count, List.length_append, List.length_singleton] at *
      omega
    · rcases List.mem_append.1 (Memory.mem_arrays.1 hc) with hc | hc
      · exact hf.2 c (Memory.mem_arrays.2 hc)
      · simp only [List.mem_singleton, Slot.live.injEq] at hc
        exact hc ▸ (allocAdmits_eq_true.1 hadm).1

/-- The bank of `State.reset` meets the invariants. -/
theorem reset_mem_wf : State.reset.mem.wf := by decide

end Sys2Proof.Machine
end

