-- ==== Sys2Proof/Laws/PerInstr.lean ====
section
/-! SUPPORT. Facts about every instruction as syntax, one lemma per constructor. -/

namespace Sys2Proof.Laws

/-- The word of an instruction carries the instruction's operation code (30_encoding.md R63, R70). -/
def OpcodeField.Statement (i : Instr) : Prop := opField (encode i) = i.opcode

theorem OpcodeField.cmov (a b c : Reg) : OpcodeField.Statement (.cmov a b c) :=
  opField_encodeStd 0 a b c

theorem OpcodeField.aidx (a b c : Reg) : OpcodeField.Statement (.aidx a b c) :=
  opField_encodeStd 1 a b c

theorem OpcodeField.amend (a b c : Reg) : OpcodeField.Statement (.amend a b c) :=
  opField_encodeStd 2 a b c

theorem OpcodeField.add (a b c : Reg) : OpcodeField.Statement (.add a b c) :=
  opField_encodeStd 3 a b c

theorem OpcodeField.mul (a b c : Reg) : OpcodeField.Statement (.mul a b c) :=
  opField_encodeStd 4 a b c

theorem OpcodeField.div (a b c : Reg) : OpcodeField.Statement (.div a b c) :=
  opField_encodeStd 5 a b c

theorem OpcodeField.nand (a b c : Reg) : OpcodeField.Statement (.nand a b c) :=
  opField_encodeStd 6 a b c

theorem OpcodeField.halt : OpcodeField.Statement .halt := opField_encodeStd 7 0 0 0

theorem OpcodeField.alloc (b c : Reg) : OpcodeField.Statement (.alloc b c) :=
  opField_encodeStd 8 0 b c

theorem OpcodeField.abandon (c : Reg) : OpcodeField.Statement (.abandon c) :=
  opField_encodeStd 9 0 0 c

theorem OpcodeField.out (c : Reg) : OpcodeField.Statement (.out c) := opField_encodeStd 10 0 0 c

theorem OpcodeField.inp (c : Reg) : OpcodeField.Statement (.inp c) := opField_encodeStd 11 0 0 c

theorem OpcodeField.loadprog (b c : Reg) : OpcodeField.Statement (.loadprog b c) :=
  opField_encodeStd 12 0 b c

theorem OpcodeField.orth (s : Reg) (imm : Nat) : OpcodeField.Statement (.orth s imm) :=
  opField_encodeImm s (BitVec.ofNat 25 imm)

end Sys2Proof.Laws
end

