-- ==== Sys2Proof/Laws/State.lean ====
section
/-! SUPPORT. What each update of the state leaves in each field, so that no later proof unfolds one. -/

namespace Sys2Proof.Machine

variable (s : State) (r q : Reg) (v : Word) (k : FaultKind) (st : Status) (m : Memory) (b : Byte)
  (w : Option Reg) (a : ConsoleAnswer)

/-! ### Registers -/

@[simp] theorem State.reg_setReg_same : (s.setReg r v).reg r = v := by
  simp [State.setReg, State.reg]

theorem State.reg_setReg_ne (h : q ≠ r) : (s.setReg r v).reg q = s.reg q := by
  have hv : r.val ≠ q.val := fun e => h (Fin.ext e.symm)
  simp [State.setReg, State.reg, hv]

/-- A register read after a register write. -/
theorem State.reg_setReg : (s.setReg r v).reg q = if q = r then v else s.reg q := by
  by_cases h : q = r
  · subst h; simp
  · simp [h, State.reg_setReg_ne s r q v h]

/-- Writing back the value a register holds changes nothing. -/
theorem State.setReg_self : s.setReg r (s.reg r) = s := by
  simp [State.setReg, State.reg]

@[simp] theorem State.setReg_pc : (s.setReg r v).pc = s.pc := rfl
@[simp] theorem State.setReg_status : (s.setReg r v).status = s.status := rfl
@[simp] theorem State.setReg_mem : (s.setReg r v).mem = s.mem := rfl
@[simp] theorem State.setReg_out : (s.setReg r v).out = s.out := rfl
@[simp] theorem State.setReg_consoleIn : (s.setReg r v).consoleIn = s.consoleIn := rfl
@[simp] theorem State.setReg_inPos : (s.setReg r v).inPos = s.inPos := rfl
@[simp] theorem State.setReg_params : (s.setReg r v).params = s.params := rfl
@[simp] theorem State.setReg_waiting : (s.setReg r v).waiting = s.waiting := rfl

/-! ### The finger -/

@[simp] theorem State.setPc_reg : (s.setPc v).reg q = s.reg q := rfl
@[simp] theorem State.setPc_regs : (s.setPc v).regs = s.regs := rfl
@[simp] theorem State.setPc_pc : (s.setPc v).pc = v := rfl
@[simp] theorem State.setPc_status : (s.setPc v).status = s.status := rfl
@[simp] theorem State.setPc_mem : (s.setPc v).mem = s.mem := rfl
@[simp] theorem State.setPc_out : (s.setPc v).out = s.out := rfl
@[simp] theorem State.setPc_consoleIn : (s.setPc v).consoleIn = s.consoleIn := rfl
@[simp] theorem State.setPc_inPos : (s.setPc v).inPos = s.inPos := rfl
@[simp] theorem State.setPc_params : (s.setPc v).params = s.params := rfl
@[simp] theorem State.setPc_waiting : (s.setPc v).waiting = s.waiting := rfl

@[simp] theorem State.advance_reg : s.advance.reg q = s.reg q := rfl
@[simp] theorem State.advance_regs : s.advance.regs = s.regs := rfl
@[simp] theorem State.advance_pc : s.advance.pc = s.pc + 1#32 := rfl
@[simp] theorem State.advance_status : s.advance.status = s.status := rfl
@[simp] theorem State.advance_mem : s.advance.mem = s.mem := rfl
@[simp] theorem State.advance_out : s.advance.out = s.out := rfl
@[simp] theorem State.advance_consoleIn : s.advance.consoleIn = s.consoleIn := rfl
@[simp] theorem State.advance_inPos : s.advance.inPos = s.inPos := rfl
@[simp] theorem State.advance_params : s.advance.params = s.params := rfl
@[simp] theorem State.advance_waiting : s.advance.waiting = s.waiting := rfl

/-! ### The status and the fault entry -/

@[simp] theorem State.setStatus_reg : (s.setStatus st).reg q = s.reg q := rfl
@[simp] theorem State.setStatus_regs : (s.setStatus st).regs = s.regs := rfl
@[simp] theorem State.setStatus_pc : (s.setStatus st).pc = s.pc := rfl
@[simp] theorem State.setStatus_status : (s.setStatus st).status = st := rfl
@[simp] theorem State.setStatus_mem : (s.setStatus st).mem = s.mem := rfl
@[simp] theorem State.setStatus_out : (s.setStatus st).out = s.out := rfl
@[simp] theorem State.setStatus_consoleIn : (s.setStatus st).consoleIn = s.consoleIn := rfl
@[simp] theorem State.setStatus_inPos : (s.setStatus st).inPos = s.inPos := rfl
@[simp] theorem State.setStatus_params : (s.setStatus st).params = s.params := rfl
@[simp] theorem State.setStatus_waiting : (s.setStatus st).waiting = s.waiting := rfl

@[simp] theorem State.raise_reg : (s.raise k).reg q = s.reg q := rfl
@[simp] theorem State.raise_regs : (s.raise k).regs = s.regs := rfl
@[simp] theorem State.raise_pc : (s.raise k).pc = s.pc := rfl
@[simp] theorem State.raise_status : (s.raise k).status = .faulted k s.pc := rfl
@[simp] theorem State.raise_mem : (s.raise k).mem = s.mem := rfl
@[simp] theorem State.raise_out : (s.raise k).out = s.out := rfl
@[simp] theorem State.raise_consoleIn : (s.raise k).consoleIn = s.consoleIn := rfl
@[simp] theorem State.raise_inPos : (s.raise k).inPos = s.inPos := rfl
@[simp] theorem State.raise_params : (s.raise k).params = s.params := rfl
@[simp] theorem State.raise_waiting : (s.raise k).waiting = s.waiting := rfl

/-! ### The Memory Bank -/

@[simp] theorem State.setMem_reg : (s.setMem m).reg q = s.reg q := rfl
@[simp] theorem State.setMem_regs : (s.setMem m).regs = s.regs := rfl
@[simp] theorem State.setMem_pc : (s.setMem m).pc = s.pc := rfl
@[simp] theorem State.setMem_status : (s.setMem m).status = s.status := rfl
@[simp] theorem State.setMem_mem : (s.setMem m).mem = m := rfl
@[simp] theorem State.setMem_out : (s.setMem m).out = s.out := rfl
@[simp] theorem State.setMem_consoleIn : (s.setMem m).consoleIn = s.consoleIn := rfl
@[simp] theorem State.setMem_inPos : (s.setMem m).inPos = s.inPos := rfl
@[simp] theorem State.setMem_params : (s.setMem m).params = s.params := rfl
@[simp] theorem State.setMem_waiting : (s.setMem m).waiting = s.waiting := rfl

/-! ### The console -/

@[simp] theorem State.consoleWrite_reg : (s.consoleWrite b).reg q = s.reg q := rfl
@[simp] theorem State.consoleWrite_regs : (s.consoleWrite b).regs = s.regs := rfl
@[simp] theorem State.consoleWrite_pc : (s.consoleWrite b).pc = s.pc := rfl
@[simp] theorem State.consoleWrite_status : (s.consoleWrite b).status = s.status := rfl
@[simp] theorem State.consoleWrite_mem : (s.consoleWrite b).mem = s.mem := rfl
@[simp] theorem State.consoleWrite_out : (s.consoleWrite b).out = s.out ++ [b] := rfl
@[simp] theorem State.consoleWrite_consoleIn : (s.consoleWrite b).consoleIn = s.consoleIn := rfl
@[simp] theorem State.consoleWrite_inPos : (s.consoleWrite b).inPos = s.inPos := rfl
@[simp] theorem State.consoleWrite_params : (s.consoleWrite b).params = s.params := rfl
@[simp] theorem State.consoleWrite_waiting : (s.consoleWrite b).waiting = s.waiting := rfl

@[simp] theorem State.consumeAnswer_reg : s.consumeAnswer.reg q = s.reg q := rfl
@[simp] theorem State.consumeAnswer_regs : s.consumeAnswer.regs = s.regs := rfl
@[simp] theorem State.consumeAnswer_pc : s.consumeAnswer.pc = s.pc := rfl
@[simp] theorem State.consumeAnswer_status : s.consumeAnswer.status = s.status := rfl
@[simp] theorem State.consumeAnswer_mem : s.consumeAnswer.mem = s.mem := rfl
@[simp] theorem State.consumeAnswer_out : s.consumeAnswer.out = s.out := rfl
@[simp] theorem State.consumeAnswer_consoleIn : s.consumeAnswer.consoleIn = s.consoleIn := rfl
@[simp] theorem State.consumeAnswer_inPos : s.consumeAnswer.inPos = s.inPos + 1 := rfl
@[simp] theorem State.consumeAnswer_params : s.consumeAnswer.params = s.params := rfl
@[simp] theorem State.consumeAnswer_waiting : s.consumeAnswer.waiting = s.waiting := rfl

@[simp] theorem State.setWaiting_reg : (s.setWaiting w).reg q = s.reg q := rfl
@[simp] theorem State.setWaiting_regs : (s.setWaiting w).regs = s.regs := rfl
@[simp] theorem State.setWaiting_pc : (s.setWaiting w).pc = s.pc := rfl
@[simp] theorem State.setWaiting_status : (s.setWaiting w).status = s.status := rfl
@[simp] theorem State.setWaiting_mem : (s.setWaiting w).mem = s.mem := rfl
@[simp] theorem State.setWaiting_out : (s.setWaiting w).out = s.out := rfl
@[simp] theorem State.setWaiting_consoleIn : (s.setWaiting w).consoleIn = s.consoleIn := rfl
@[simp] theorem State.setWaiting_inPos : (s.setWaiting w).inPos = s.inPos := rfl
@[simp] theorem State.setWaiting_params : (s.setWaiting w).params = s.params := rfl
@[simp] theorem State.setWaiting_waiting : (s.setWaiting w).waiting = w := rfl

@[simp] theorem State.supply_reg : (s.supply a).reg q = s.reg q := rfl
@[simp] theorem State.supply_regs : (s.supply a).regs = s.regs := rfl
@[simp] theorem State.supply_pc : (s.supply a).pc = s.pc := rfl
@[simp] theorem State.supply_status : (s.supply a).status = s.status := rfl
@[simp] theorem State.supply_mem : (s.supply a).mem = s.mem := rfl
@[simp] theorem State.supply_out : (s.supply a).out = s.out := rfl
@[simp] theorem State.supply_consoleIn : (s.supply a).consoleIn = s.consoleIn ++ [a] := rfl
@[simp] theorem State.supply_inPos : (s.supply a).inPos = s.inPos := rfl
@[simp] theorem State.supply_params : (s.supply a).params = s.params := rfl
@[simp] theorem State.supply_waiting : (s.supply a).waiting = s.waiting := rfl

/-- The answer next read, before and after one more is supplied (45_console.md R133). -/
theorem State.supply_nextAnswer :
    (s.supply a).nextAnswer =
      if s.inPos = s.consoleIn.length then some a else s.nextAnswer := by
  simp only [State.nextAnswer, State.supply_consoleIn, State.supply_inPos]
  by_cases h : s.inPos < s.consoleIn.length
  · simp [List.getElem?_append_left h, Nat.ne_of_lt h]
  · by_cases he : s.inPos = s.consoleIn.length
    · simp [he]
    · have hlt : s.consoleIn.length < s.inPos := by omega
      rw [if_neg he, List.getElem?_eq_none (by simp; omega), List.getElem?_eq_none hlt.le]

/-- `ConsoleRead` with an answer supplied. -/
theorem State.receive_of_some (h : s.nextAnswer = some a) :
    s.receive r = (s.consumeAnswer.setReg r (answerValue a)).setWaiting none := by
  simp [State.receive, h]

/-- `ConsoleRead` with none: the core waits (45_console.md R135). -/
theorem State.receive_of_none (h : s.nextAnswer = none) : s.receive r = s.setWaiting (some r) := by
  simp [State.receive, h]

@[simp] theorem State.receive_pc : (s.receive r).pc = s.pc := by
  cases h : s.nextAnswer <;> simp [State.receive, h]
@[simp] theorem State.receive_status : (s.receive r).status = s.status := by
  cases h : s.nextAnswer <;> simp [State.receive, h]
@[simp] theorem State.receive_mem : (s.receive r).mem = s.mem := by
  cases h : s.nextAnswer <;> simp [State.receive, h]
@[simp] theorem State.receive_out : (s.receive r).out = s.out := by
  cases h : s.nextAnswer <;> simp [State.receive, h]
@[simp] theorem State.receive_consoleIn : (s.receive r).consoleIn = s.consoleIn := by
  cases h : s.nextAnswer <;> simp [State.receive, h]
@[simp] theorem State.receive_params : (s.receive r).params = s.params := by
  cases h : s.nextAnswer <;> simp [State.receive, h]

/-! ### Two states with the same registers -/

/-- The register file is what its eight reads give. -/
theorem State.regs_ext {s t : State} (h : ∀ q : Reg, s.reg q = t.reg q) : s.regs = t.regs := by
  refine Vector.ext fun i hi => ?_
  simpa [State.reg] using h ⟨i, hi⟩

end Sys2Proof.Machine
end

