-- ==== Sys2Proof/Laws/Step.lean ====
section
/-! SUPPORT. What each meaning, and the step, can do, said once: if it answers a next state, then one
of the cases named holds. -/

namespace Sys2Proof.Machine

variable {s t : State}

/-- An operation that may raise either enters the fault or goes on (60_exceptions.md R156). -/
theorem State.attempt_eq_next {α : Type} {r : Except FaultKind α} {f : α → State} :
    s.attempt r f = .next t ↔ (∃ k, r = .error k ∧ t = s.raise k) ∨ (∃ x, r = .ok x ∧ t = f x) := by
  cases r <;> simp [State.attempt, eq_comm (α := State)]

theorem execCmov_eq_next {a b c : Reg} :
    execCmov a b c s = .next t ↔
      (s.reg c ≠ 0#32 ∧ t = s.setReg a (s.reg b)) ∨ (s.reg c = 0#32 ∧ t = s) := by
  by_cases h : s.reg c = 0#32 <;> simp [execCmov, isNonzero, h, eq_comm (α := State)]

theorem execAidx_eq_next {a b c : Reg} :
    execAidx a b c s = .next t ↔
      (∃ k, s.mem.translate (s.reg b) (s.reg c) = .error k ∧ t = s.raise k) ∨
      (∃ v, s.mem.read (s.reg b) (s.reg c) = .ok v ∧ t = s.setReg a v) := by
  simp only [execAidx, State.attempt_eq_next, Memory.read_eq_error]

theorem execAmend_eq_next {a b c : Reg} :
    execAmend a b c s = .next t ↔
      (∃ k, s.mem.translate (s.reg a) (s.reg b) = .error k ∧ t = s.raise k) ∨
      (∃ m, s.mem.write (s.reg a) (s.reg b) (s.reg c) = .ok m ∧ t = s.setMem m) := by
  simp only [execAmend, State.attempt_eq_next, Memory.write_eq_error]

theorem execAdd_eq_next {a b c : Reg} :
    execAdd a b c s = .next t ↔ t = s.setReg a (aluAdd (s.reg b) (s.reg c)) := by
  simp [execAdd, eq_comm (α := State)]

theorem execMul_eq_next {a b c : Reg} :
    execMul a b c s = .next t ↔ t = s.setReg a (aluMul (s.reg b) (s.reg c)) := by
  simp [execMul, eq_comm (α := State)]

theorem execDiv_eq_next {a b c : Reg} :
    execDiv a b c s = .next t ↔
      (s.reg c = 0#32 ∧ t = s.raise .divideByZero) ∨
      (s.reg c ≠ 0#32 ∧ t = s.setReg a (aluDiv (s.reg b) (s.reg c))) := by
  by_cases h : s.reg c = 0#32 <;> simp [execDiv, isZero, h, eq_comm (α := State)]

theorem execNand_eq_next {a b c : Reg} :
    execNand a b c s = .next t ↔ t = s.setReg a (aluNand (s.reg b) (s.reg c)) := by
  simp [execNand, eq_comm (α := State)]

theorem execHalt_eq_next : execHalt s = .next t ↔ t = s.setStatus .halted := by
  simp [execHalt, eq_comm (α := State)]

theorem execAlloc_eq_next {b c : Reg} :
    execAlloc b c s = .next t ↔
      (allocAdmits s.params s.mem (s.reg c) = false ∧ t = s.raise .allocationError) ∨
      (∃ h m, s.mem.allocate s.params (s.reg c) = .ok (h, m) ∧ t = (s.setMem m).setReg b h) := by
  simp only [execAlloc, State.attempt_eq_next, Memory.allocate_eq_error, Prod.exists]
  constructor
  · rintro (⟨k, ⟨rfl, ha⟩, rfl⟩ | h)
    · exact .inl ⟨ha, rfl⟩
    · exact .inr h
  · rintro (⟨ha, rfl⟩ | h)
    · exact .inl ⟨_, ⟨rfl, ha⟩, rfl⟩
    · exact .inr h

theorem execAbandon_eq_next {c : Reg} :
    execAbandon c s = .next t ↔
      ((s.reg c = 0#32 ∨ s.mem.live (s.reg c) = false) ∧ t = s.raise .invalidHandle) ∨
      (∃ m, s.mem.release (s.reg c) = .ok m ∧ t = s.setMem m) := by
  simp only [execAbandon, State.attempt_eq_next, Memory.release_eq_error]
  constructor
  · rintro (⟨k, ⟨rfl, ha⟩, rfl⟩ | h)
    · exact .inl ⟨ha, rfl⟩
    · exact .inr h
  · rintro (⟨ha, rfl⟩ | h)
    · exact .inl ⟨_, ⟨rfl, ha⟩, rfl⟩
    · exact .inr h

theorem execOut_eq_next {c : Reg} :
    execOut c s = .next t ↔
      ((s.reg c).toNat ≤ 255 ∧ t = s.consoleWrite (lowByte (s.reg c))) ∨
      (255 < (s.reg c).toNat ∧ t = s.raise .outOfRange) := by
  by_cases h : (s.reg c).toNat ≤ 255
  · simp [execOut, fitsByte, h, Nat.not_lt.2 h, eq_comm (α := State)]
  · simp [execOut, fitsByte, h, Nat.lt_of_not_le h, eq_comm (α := State)]

theorem execInp_eq_next {c : Reg} :
    execInp c s = .next t ↔ t = s.receive c := by
  simp [execInp, eq_comm (α := State)]

theorem execLoadprog_eq_next {b c : Reg} :
    execLoadprog b c s = .next t ↔
      (s.reg b ≠ 0#32 ∧ s.mem.array? (s.reg b) = none ∧ t = s.raise .invalidHandle) ∨
      (∃ m, s.mem.replaceProgram (s.reg b) = .ok m ∧ t = (s.setMem m).setPc (s.reg c)) := by
  simp only [execLoadprog, State.attempt_eq_next, Memory.replaceProgram_eq_error]
  constructor
  · rintro (⟨k, ⟨rfl, h0, ha⟩, rfl⟩ | h)
    · exact .inl ⟨h0, ha, rfl⟩
    · exact .inr h
  · rintro (⟨h0, ha, rfl⟩ | h)
    · exact .inl ⟨_, ⟨rfl, h0, ha⟩, rfl⟩
    · exact .inr h

theorem execOrth_eq_next {d : Reg} {imm : Nat} :
    execOrth d imm s = .next t ↔ t = s.setReg d (immValue imm) := by
  simp [execOrth, eq_comm (α := State)]

/-- The three ways a step of a running core can go (40_step.md R80). -/
theorem State.cycle_eq_next :
    s.cycle = .next t ↔
      (∃ k, s.fetch = .error k ∧ t = s.raise k) ∨
      (∃ w e, s.fetch = .ok w ∧ decode w = .error e ∧ t = s.advance.raise .invalidOpcode) ∨
      (∃ w i, s.fetch = .ok w ∧ decode w = .ok i ∧ exec i s.advance = .next t) := by
  unfold State.cycle State.runWord
  cases s.fetch with
  | error k => simp [eq_comm (α := State)]
  | ok w => cases hd : decode w <;> simp [hd, eq_comm (α := State)]

/-- A step is taken only by a core whose status is `RUNNING` (40_step.md R80): a new one, or the rest
of an `IN` that waits (45_console.md R135). -/
theorem step_eq_next :
    step s = .next t ↔ s.status = .running ∧
      ((s.waiting = none ∧ s.cycle = .next t) ∨ ∃ c, s.waiting = some c ∧ t = s.receive c) := by
  unfold step State.proceed
  cases h : s.status <;> cases s.waiting <;> simp [eq_comm (α := State)]

/-- The step places and runs one word: what `State.withFetchWord` is for. -/
theorem State.fetch_withFetchWord (s : State) (nbits w : Nat) :
    (s.withFetchWord nbits w).fetch = .ok (BitVec.ofNat 32 (w % Nat.pow 2 nbits)) := by
  have hlt : s.pc.toNat < max ((s.mem.array? 0#32).getD (WordArray.zeros 0)).len (s.pc.toNat + 1) :=
    lt_of_lt_of_le (Nat.lt_succ_self _) (le_max_right _ _)
  refine Memory.read_eq_ok.2
    ⟨({ len := max ((s.mem.array? 0#32).getD (WordArray.zeros 0)).len (s.pc.toNat + 1),
        cells := ((s.mem.array? 0#32).getD (WordArray.zeros 0)).cells } : WordArray).set s.pc.toNat
          (BitVec.ofNat 32 (w % Nat.pow 2 nbits)), ?_, hlt, ?_⟩
  · refine Memory.array?_eq_some.2 ?_
    cases h : s.mem.slots <;> simp [State.withFetchWord, State.placeFetchWord, Memory.placeWord, h]
  · exact (WordArray.get_set _ _ _ _).trans (if_pos rfl)

end Sys2Proof.Machine
end

