-- ==== Sys2Proof/Tests/Slice0.lean ====
section
/-! SUPPORT. The model's own tests. Expected values are those of 95_test_vectors.md, or written out by
hand from the encodings of 30_encoding.md. -/

namespace Sys2Proof.Machine.Tests

/-! ### Well-formedness: the one check, refused and met -/

theorem test_wellFormed_refuses_wide_immediate :
    (Instr.orth 0 33554432).wellFormed = false := by decide

theorem test_wellFormed_accepts_widest_immediate :
    (Instr.orth 7 33554431).wellFormed = true := by decide

/-! ### Decoding (95_test_vectors.md 2.1), one word or more for every constructor -/

theorem test_decode_cmov :
    decode 0x00000000#32 = .ok (.cmov 0 0 0) ∧ decode 0x00000053#32 = .ok (.cmov 1 2 3) ∧
    decode 0x0FFFFE00#32 = .ok (.cmov 0 0 0) ∧ decode 0x0FFFFFFF#32 = .ok (.cmov 7 7 7) := by
  refine ⟨?_, ?_, ?_, ?_⟩ <;> rfl
theorem test_decode_aidx : decode 0x10000053#32 = .ok (.aidx 1 2 3) := rfl
theorem test_decode_amend : decode 0x2000001A#32 = .ok (.amend 0 3 2) := rfl
theorem test_decode_add :
    decode 0x300001A8#32 = .ok (.add 6 5 0) ∧ decode 0x3ABCDE53#32 = .ok (.add 1 2 3) := ⟨rfl, rfl⟩
theorem test_decode_mul : decode 0x40000053#32 = .ok (.mul 1 2 3) := rfl
theorem test_decode_div : decode 0x50000053#32 = .ok (.div 1 2 3) := rfl
theorem test_decode_nand : decode 0x600000C0#32 = .ok (.nand 3 0 0) := rfl
theorem test_decode_halt : decode 0x70000000#32 = .ok .halt ∧ decode 0x7FFFFFFF#32 = .ok .halt :=
  ⟨rfl, rfl⟩
theorem test_decode_alloc :
    decode 0x8000000A#32 = .ok (.alloc 1 2) ∧ decode 0x800001CA#32 = .ok (.alloc 1 2) := ⟨rfl, rfl⟩
theorem test_decode_abandon : decode 0x90000001#32 = .ok (.abandon 1) := rfl
theorem test_decode_out : decode 0xA0000002#32 = .ok (.out 2) := rfl
theorem test_decode_in : decode 0xB0000001#32 = .ok (.inp 1) := rfl
theorem test_decode_loadprog :
    decode 0xC0000006#32 = .ok (.loadprog 0 6) ∧ decode 0xC0000017#32 = .ok (.loadprog 2 7) :=
  ⟨rfl, rfl⟩
theorem test_decode_orth :
    decode 0xD00001FF#32 = .ok (.orth 0 511) ∧ decode 0xD7FFFFFF#32 = .ok (.orth 3 33554431) ∧
    decode 0xDE000002#32 = .ok (.orth 7 2) ∧ decode 0xDFFFFFFF#32 = .ok (.orth 7 33554431) :=
  ⟨rfl, rfl, rfl, rfl⟩
theorem test_decode_invalid :
    decode 0xE0000000#32 = .error (.invalidOpcode 14) ∧
    decode 0xEFFFFFFF#32 = .error (.invalidOpcode 14) ∧
    decode 0xF0000000#32 = .error (.invalidOpcode 15) ∧
    decode 0xFFFFFFFF#32 = .error (.invalidOpcode 15) := ⟨rfl, rfl, rfl, rfl⟩

/-- The words of the listings of 95_test_vectors.md 3. -/
theorem test_encode_listing_words :
    encode (.cmov 6 4 1) = 0x000001A1#32 ∧ encode (.aidx 4 1 3) = 0x1000010B#32 ∧
    encode (.amend 1 6 5) = 0x20000075#32 ∧ encode (.add 1 1 3) = 0x3000004B#32 ∧
    encode (.mul 1 1 1) = 0x40000049#32 ∧ encode (.div 1 2 3) = 0x50000053#32 ∧
    encode (.nand 2 1 1) = 0x60000089#32 ∧ encode .halt = 0x70000000#32 ∧
    encode (.alloc 5 7) = 0x8000002F#32 ∧ encode (.abandon 2) = 0x90000002#32 ∧
    encode (.out 0) = 0xA0000000#32 ∧ encode (.inp 1) = 0xB0000001#32 ∧
    encode (.loadprog 2 7) = 0xC0000017#32 ∧ encode (.orth 7 2) = 0xDE000002#32 := by decide

/-! ### One step of each instruction -/

/-- The bank of the vectors of 95_test_vectors.md 2.4: array 0 a program of two words, array 1 three
words; and two free handles besides, 3 the top of the free list. -/
def bank : Memory :=
  { slots := [.live (WordArray.ofWords [0x10000053#32, 0xE0000000#32]),
      .live (WordArray.ofWords [0x11#32, 0x22#32, 0x33#32]), .free, .free]
    free := [3#32, 2#32] }

/-- A running core on `bank` with `x[1]`, `x[2]`, `x[3]` as given and two console answers. -/
def core (x1 x2 x3 : Word) : State :=
  { State.reset with
    regs := #v[0#32, x1, x2, x3, 0#32, 0#32, 0#32, 0#32]
    mem := bank
    consoleIn := [.byte 0xFF#8, .endOfInput] }

/-- The same core with no free handle and room for no new one, and arrays of at most four words. -/
def full (x1 x2 x3 : Word) : State :=
  { core x1 x2 x3 with
    mem := { slots := bank.slots.take 2, free := [] }
    params := { capHandles := 2, maxArrayWords := 4, policy := .admitAll } }

/-- The next state, or the state itself where there is none. -/
def after (s : State) : Answer → State
  | .next t => t
  | .fault _ => s
  | .refused _ => s

/-- The state after one step that fetches the word `w`. -/
def ran (w : Nat) (s : State) : State := after s (step (s.withFetchWord 32 w))

theorem test_cmov_any_bit_moves : (ran 0x53 (core 9 7 0x80000000)).reg 1 = 7 := by decide
theorem test_cmov_zero_keeps : (ran 0x53 (core 9 7 0)).reg 1 = 9 := by decide
theorem test_aidx_last_word : (ran 0x10000053 (core 0 1 2)).reg 1 = 0x33 := by decide
theorem test_aidx_handle_first :
    (ran 0x10000053 (core 0 2 99)).status = .faulted .invalidHandle 1 := by decide
theorem test_amend_stores :
    ((ran 0x20000053 (core 1 1 0xCAFE)).mem.array? 1).map WordArray.words
      = some [0x11, 0xCAFE, 0x33] := by decide
theorem test_amend_does_not_append :
    (ran 0x20000053 (core 1 3 5)).status = .faulted .indexError 1 := by decide
theorem test_add_wraps : (ran 0x30000053 (core 0 0x12345678 0x9ABCDEF0)).reg 1 = 0xACF13568 ∧
    (ran 0x30000053 (core 0 0xFFFFFFFF 1)).reg 1 = 0 := by decide
theorem test_mul_keeps_low_half : (ran 0x40000053 (core 0 0x12345678 0x9ABCDEF0)).reg 1 = 0x242D2080 ∧
    (ran 0x40000053 (core 0 0xFFFFFFFF 0xFFFFFFFF)).reg 1 = 1 := by decide
theorem test_div_is_unsigned : (ran 0x50000053 (core 0 0xFFFFFFFE 0xFFFFFFFF)).reg 1 = 0 ∧
    (ran 0x50000053 (core 0 0x0000FF00 0x00000FF0)).reg 1 = 0x10 := by decide
theorem test_div_by_zero :
    (ran 0x50000053 (core 5 0xDEADBEEF 0)).status = .faulted .divideByZero 1 ∧
    (ran 0x50000053 (core 5 0xDEADBEEF 0)).reg 1 = 5 := by decide
theorem test_nand : (ran 0x60000053 (core 0 0x0000FF00 0x00000FF0)).reg 1 = 0xFFFFF0FF := by decide
theorem test_halt : (ran 0x70000000 (core 1 2 3)).status = .halted ∧
    (ran 0x70000000 (core 1 2 3)).pc = 1 := by decide
theorem test_alloc_reuses_top : (ran 0x80000011 (core 5 0 0)).reg 2 = 3 ∧
    (ran 0x80000011 (core 5 0 0)).mem.free = [2] := by decide
theorem test_alloc_mints :
    (ran 0x80000009 { State.reset with regs := State.reset.regs.set 1 3 }).reg 1 = 1 := by decide
theorem test_abandon : (ran 0x90000001 (core 1 0 0)).mem.free = [1, 3, 2] ∧
    (ran 0x90000001 (core 1 0 0)).mem.live 1 = false := by decide
theorem test_abandon_program : (ran 0x90000000 (core 0 0 0)).status = .faulted .invalidHandle 1 := by
  decide
theorem test_out_255 : (ran 0xA0000001 (core 0xFF 0 0)).out = [0xFF] := by decide
theorem test_out_256 : (ran 0xA0000001 (core 0x100 0 0)).status = .faulted .outOfRange 1 ∧
    (ran 0xA0000001 (core 0x100 0 0)).out = [] := by decide
theorem test_in_byte_and_end_of_input : (ran 0xB0000001 (core 0 0 0)).reg 1 = 0xFF ∧
    (ran 0xB0000001 { core 0 0 0 with inPos := 1 }).reg 1 = 0xFFFFFFFF := by decide
/-- 45_console.md R135: no answer supplied; the core waits with the finger advanced, still running,
and takes the answer once it is there. -/
theorem test_in_waits :
    (ran 0xB0000001 State.reset).status = .running ∧ (ran 0xB0000001 State.reset).pc = 1 ∧
    (ran 0xB0000001 State.reset).waiting = some 1 ∧
    step (ran 0xB0000001 State.reset) = .next (ran 0xB0000001 State.reset) ∧
    (after State.reset (step ((ran 0xB0000001 State.reset).supply (.byte 0x41)))).reg 1 = 0x41 :=
  ⟨by decide, by decide, by decide, rfl, by decide⟩
theorem test_loadprog_jump : (ran 0xC0000001 (core 5 0 0)).pc = 5 := by decide
theorem test_loadprog_swap : (ran 0xC000000A (core 1 2 0)).pc = 2 ∧
    ((ran 0xC000000A (core 1 2 0)).mem.array? 0).map WordArray.words = some [0x11, 0x22, 0x33] := by
  decide
theorem test_orth : (ran 0xD7FFFFFF (core 0 0 0xFFFFFFFF)).reg 3 = 0x01FFFFFF := by decide
theorem test_invalid_opcode : (ran 0xF0000000 (core 0 0 0)).status = .faulted .invalidOpcode 1 := by
  decide

/-- Vector F7: the empty image. -/
theorem test_empty_image : (after State.reset (step State.reset)).status = .faulted .indexError 0 := by
  decide

/-- Vectors F19 and F20: no handle left, and an array too long. -/
theorem test_capacity : (after (full 1 0 0) (exec (.alloc 2 1) (full 1 0 0))).status
      = .faulted .allocationError 0 ∧
    (after (core 5 0 0) (exec (.alloc 2 1) { core 5 0 0 with params := (full 0 0 0).params })).status
      = .faulted .allocationError 0 := by decide

/-- The image of program P1 as bytes. -/
theorem test_load_image :
    loadImage [0xD0, 0, 0, 0x48, 0xA0, 0, 0, 0, 0x70, 0, 0, 0]
      = .ok [0xD0000048#32, 0xA0000000#32, 0x70000000#32] ∧
    loadImage [0xD0, 0, 0, 0x48, 0xA0] = .error .truncatedImage := ⟨by rfl, by rfl⟩

/-! ### Witnesses: a state and operands that meet the hypotheses of each statement -/

/-- The core that fetches the word `w` next. -/
def at' (w : Nat) (s : State) : State := s.withFetchWord 32 w

theorem test_witness_core_inv : (core 1 2 3).Inv ∧ (full 1 2 3).Inv := by decide

/-- `DecodeOfEncodeGivesTheInstruction`, `OrthLoadsTheImmediate`: the widest immediate. -/
theorem test_witness_wellFormed :
    (Instr.orth 7 33554431).wellFormed = true ∧ 33554431 ≤ 33554431 ∧
    (Instr.halt).wellFormed = true := by decide

/-- `StandardFormatFieldPositions`: all ignored bits 1. -/
theorem test_witness_ignored_bits : 524287 < 524288 ∧ standardWord 12 524287 7 7 7 = 0xCFFFFFFF#32 := by
  decide

/-- `DecodedInstructionsAreWellFormed`. -/
theorem test_witness_decodes : decode 0xDFFFFFFF#32 = .ok (.orth 7 33554431) := rfl

/-- `StepRunsTheDecodedInstruction`. -/
theorem test_witness_step_runs :
    (at' 0x30000053 (core 0 1 2)).status = .running ∧ (at' 0x30000053 (core 0 1 2)).waiting = none ∧
    (at' 0x30000053 (core 0 1 2)).mem.read 0#32 (at' 0x30000053 (core 0 1 2)).pc = .ok 0x30000053#32 ∧
    decode 0x30000053#32 = .ok (.add 1 2 3) ∧ (Instr.add 1 2 3).wellFormed = true :=
  ⟨rfl, rfl, rfl, rfl, rfl⟩

/-- `FetchPastTheEndFaults`: one past the last word. -/
theorem test_witness_fetch_past_the_end :
    ({ core 0 0 0 with pc := 2#32 } : State).status = .running ∧
    (core 0 0 0).waiting = none ∧
    ∃ a, (core 0 0 0).mem.array? 0#32 = some a ∧ a.len ≤ (2#32).toNat :=
  ⟨rfl, rfl, _, rfl, by decide⟩

/-- `InvalidOpcodeFaultsAfterTheAdvance`: both operation codes. -/
theorem test_witness_invalid_opcode :
    (at' 0xE0000000 (core 0 0 0)).mem.read 0#32 0#32 = .ok 0xE0000000#32 ∧
    opField 0xE0000000#32 = 14 ∧
    (at' 0xFFFFFFFF (core 0 0 0)).mem.read 0#32 0#32 = .ok 0xFFFFFFFF#32 ∧
    opField 0xFFFFFFFF#32 = 15 ∧ (at' 0xE0000000 (core 0 0 0)).status = .running ∧
    (at' 0xE0000000 (core 0 0 0)).waiting = none := ⟨rfl, rfl, rfl, rfl, rfl, rfl⟩

/-- `FingerAfterAFetchedWord`: a sum, a jump, a halt, a `LOADPROG` of a dead handle (the word decodes
to a `LOADPROG` and the core does not run on), and an `IN` that waits. -/
theorem test_witness_finger :
    (at' 0x30000053 (core 0 1 2)).waiting = none ∧
    step (at' 0x30000053 (core 0 1 2)) = .next (ran 0x30000053 (core 0 1 2)) ∧
    (∀ b c, decode 0x30000053#32 ≠ .ok (.loadprog b c)) ∧
    step (at' 0xC0000001 (core 5 0 0)) = .next (ran 0xC0000001 (core 5 0 0)) ∧
    decode 0xC0000001#32 = .ok (.loadprog 0 1) ∧ (ran 0xC0000001 (core 5 0 0)).status = .running ∧
    step (at' 0x70000000 (core 5 0 0)) = .next (ran 0x70000000 (core 5 0 0)) ∧
    (ran 0x70000000 (core 5 0 0)).status ≠ .running ∧
    step (at' 0xC000000A (core 2 7 0)) = .next (ran 0xC000000A (core 2 7 0)) ∧
    decode 0xC000000A#32 = .ok (.loadprog 1 2) ∧
    (ran 0xC000000A (core 2 7 0)).status = .faulted .invalidHandle 1 ∧
    (ran 0xB0000001 State.reset).waiting ≠ none ∧
    step (ran 0xB0000001 State.reset) = .next (ran 0xB0000001 State.reset) :=
  ⟨rfl, rfl, fun _ _ h => (by cases h), rfl, rfl, rfl, rfl, by decide, rfl, rfl, rfl, by decide, rfl⟩

/-- `FaultsArePrecise`: a fault in execute and one in fetch. -/
theorem test_witness_precise :
    step (at' 0x50000053 (core 5 1 0)) = .next (ran 0x50000053 (core 5 1 0)) ∧
    (ran 0x50000053 (core 5 1 0)).status = .faulted .divideByZero 1#32 ∧
    step State.reset = .next (after State.reset (step State.reset)) ∧
    (after State.reset (step State.reset)).status = .faulted .indexError 0#32 ∧
    State.reset.mem.read 0#32 0#32 = .error .indexError := ⟨rfl, rfl, rfl, rfl, rfl⟩

/-- `FaultsOfEachInstruction`: each kind that an instruction can raise. -/
theorem test_witness_each_fault :
    (core 0 2 0).status = .running ∧ (full 5 0 0).status = .running ∧
    (after State.reset (exec (.aidx 1 2 3) (core 0 2 0))).status = .faulted .invalidHandle 0 ∧
    (after State.reset (exec (.amend 1 2 3) (core 1 3 0))).status = .faulted .indexError 0 ∧
    (after State.reset (exec (.div 1 2 3) (core 0 2 0))).status = .faulted .divideByZero 0 ∧
    (after State.reset (exec (.out 1) (core 256 0 0))).status = .faulted .outOfRange 0 ∧
    (after State.reset (exec (.alloc 2 1) (full 5 0 0))).status = .faulted .allocationError 0 := by
  decide

/-- `CmovMovesUnlessZero`, `DivIsTheUnsignedFloor`, `DivByZeroFaults`. -/
theorem test_witness_divisors :
    (core 0 7 0x80000000).reg 3 ≠ 0#32 ∧ (core 0 7 0).reg 3 = 0#32 := by decide

/-- `AidxLoadsTheWord`, `AidxFaults`: the last index, the length, a free handle and the handle `N`. -/
theorem test_witness_aidx :
    (core 0 1 2).mem.array? ((core 0 1 2).reg 2) = some (WordArray.ofWords [0x11, 0x22, 0x33]) ∧
    ((core 0 1 2).reg 3).toNat < (WordArray.ofWords [0x11, 0x22, 0x33]).len ∧
    (WordArray.ofWords [0x11, 0x22, 0x33]).len ≤ ((core 0 1 3).reg 3).toNat ∧
    (core 0 2 0).mem.live ((core 0 2 0).reg 2) = false ∧
    (core 0 4 0).mem.live ((core 0 4 0).reg 2) = false := by decide

/-- `AmendStoresTheWord`, `AmendFaults`: the last index, the length and a free handle. -/
theorem test_witness_amend :
    (core 1 2 9).mem.array? ((core 1 2 9).reg 1) = some (WordArray.ofWords [0x11, 0x22, 0x33]) ∧
    ((core 1 2 9).reg 2).toNat < (WordArray.ofWords [0x11, 0x22, 0x33]).len ∧
    (WordArray.ofWords [0x11, 0x22, 0x33]).len ≤ ((core 1 3 9).reg 2).toNat ∧
    (core 3 0 0).mem.live ((core 3 0 0).reg 1) = false := by decide

/-- `HaltStopsTheCore`: the largest word of a halt. -/
theorem test_witness_halt :
    opField 0x7FFFFFFF#32 = 7 ∧ (at' 0x7FFFFFFF (core 0 0 0)).status = .running ∧
    (at' 0x7FFFFFFF (core 0 0 0)).waiting = none ∧
    (at' 0x7FFFFFFF (core 0 0 0)).mem.read 0#32 0#32 = .ok 0x7FFFFFFF#32 := ⟨rfl, rfl, rfl, rfl⟩

/-- `StoredInstructionIsFetched`: the last word of the program. -/
theorem test_witness_self_modifying :
    ({ core 0 1 9 with pc := 1#32 } : State).reg 1 = 0#32 ∧
    ({ core 0 1 9 with pc := 1#32 } : State).reg 2 = 1#32 ∧
    (core 0 1 9).mem.array? 0#32 = some (WordArray.ofWords [0x10000053, 0xE0000000]) ∧
    (1#32).toNat < (WordArray.ofWords [0x10000053, 0xE0000000]).len := by decide

/-- `AllocGivesAFreshZeroArray`: a reused handle at the longest length, and a minted one. -/
theorem test_witness_alloc :
    (core 0xFFFFFFFF 0 0).Inv ∧
    ((core 0xFFFFFFFF 0 0).reg 1).toNat ≤ (core 0xFFFFFFFF 0 0).params.maxArrayWords ∧
    (core 0xFFFFFFFF 0 0).mem.free ≠ [] ∧
    allocChosen Params.default (core 0xFFFFFFFF 0 0).mem 0xFFFFFFFF#32 = true ∧
    State.reset.Inv ∧ (State.reset.reg 1).toNat ≤ State.reset.params.maxArrayWords ∧
    State.reset.mem.free = [] ∧ State.reset.mem.count ≠ State.reset.params.capHandles ∧
    allocChosen Params.default State.reset.mem 0#32 = true := by
  refine ⟨?_, ?_, ?_, ?_, ?_, ?_, ?_, ?_, ?_⟩ <;> decide

/-- `AllocNotAdmittedFaults`: one word too long, and no handle left. -/
theorem test_witness_not_admitted :
    (full 5 0 0).params.maxArrayWords < ((full 5 0 0).reg 1).toNat ∧
    (full 4 0 0).mem.free = [] ∧ (full 4 0 0).mem.count = (full 4 0 0).params.capHandles ∧
    allocAdmits (full 4 0 0).params (full 4 0 0).mem ((full 4 0 0).reg 1) = false := by decide

/-- `AbandonFreesTheHandle`, `AbandonFaults`: a live handle, 0, a free one and one never allocated. -/
theorem test_witness_abandon :
    (core 1 0 0).reg 1 ≠ 0#32 ∧ (core 1 0 0).mem.live ((core 1 0 0).reg 1) = true ∧
    (core 0 0 0).reg 1 = 0#32 ∧ (core 3 0 0).mem.live ((core 3 0 0).reg 1) = false ∧
    (core 4 0 0).mem.live ((core 4 0 0).reg 1) = false := by decide

/-- `OutEmitsTheByte`, `OutAbove255Faults`. -/
theorem test_witness_out : ((core 255 0 0).reg 1).toNat ≤ 255 ∧ 255 < ((core 256 0 0).reg 1).toNat := by
  decide

/-- `InTakesTheAnswer`: a byte, and end of input. -/
theorem test_witness_in : (core 0 0 0).consoleIn[(core 0 0 0).inPos]? = some (.byte 0xFF#8) ∧
    ({ core 0 0 0 with inPos := 1 } : State).consoleIn[1]? = some .endOfInput := by decide

/-- The core that waits in an `IN` into `x[1]`, the next answer being the one at position `n`. -/
def waits (n : Nat) : State := { core 0 0 0 with inPos := n, waiting := some 1 }

/-- `InputWithoutAnAnswerWaits`, `WaitingInputCompletes`, `AWaitLeavesNoTrace`. -/
theorem test_witness_wait :
    ({ core 0 0 0 with inPos := 2 } : State).consoleIn[2]? = none ∧
    (waits 2).status = .running ∧ (waits 2).waiting = some 1 ∧ (waits 2).consoleIn[2]? = none ∧
    (waits 1).status = .running ∧ (waits 1).waiting = some 1 ∧
    (waits 1).consoleIn[(waits 1).inPos]? = some .endOfInput ∧
    (core 0 0 0).status = .running ∧ (core 0 0 0).waiting = none ∧
    (State.reset).waiting = none ∧ State.reset.inPos = State.reset.consoleIn.length := by
  refine ⟨?_, ?_, ?_, ?_, ?_, ?_, ?_, ?_, ?_, ?_, ?_⟩ <;> decide

/-- `LoadprogZeroIsAJump`, `LoadprogSwapsAndJumps`, `LoadprogDeadHandleFaults`. -/
theorem test_witness_loadprog :
    (core 0 9 0).reg 1 = 0#32 ∧
    (core 0 9 0).mem.array? ((core 0 9 0).reg 1)
      = some (WordArray.ofWords [0x10000053, 0xE0000000]) ∧
    (core 1 3 0).mem.array? ((core 1 3 0).reg 1) = some (WordArray.ofWords [0x11, 0x22, 0x33]) ∧
    (core 2 0 0).reg 1 ≠ 0#32 ∧ (core 2 0 0).mem.live ((core 2 0 0).reg 1) = false := by decide

/-- `TranslateChecksHandleThenIndex`, `WriteChangesOneCell`. -/
theorem test_witness_translate :
    bank.live 4#32 = false ∧ bank.array? 1#32 = some (WordArray.ofWords [0x11, 0x22, 0x33]) ∧
    (WordArray.ofWords [0x11, 0x22, 0x33]).len ≤ (3#32).toNat ∧
    (2#32).toNat < (WordArray.ofWords [0x11, 0x22, 0x33]).len ∧
    bank.translate 1#32 2#32 = .ok (WordArray.ofWords [0x11, 0x22, 0x33]) ∧
    bank.translate 1#32 3#32 = .error .indexError ∧
    bank.write 1#32 3#32 0#32 = .error .indexError := by
  refine ⟨rfl, rfl, ?_, ?_, rfl, rfl, rfl⟩ <;> decide

/-- `bank` after handle 1 is released. -/
def released : Memory := { slots := bank.slots.set 1 .free, free := 1#32 :: bank.free }

/-- `ReleaseFreesOrRaises`, `ReleasedHandleIsDead`, `AllocationReusesTheLastRelease`. -/
theorem test_witness_release :
    (1#32 : Word) ≠ 0#32 ∧ bank.live 1#32 = true ∧ bank.live 2#32 = false ∧
    bank.release 1#32 = .ok released ∧ allocAdmits Params.default released 7#32 = true := by
  refine ⟨?_, rfl, rfl, rfl, ?_⟩ <;> decide

/-- `AllocatedHandleIsFresh`: a reused handle and a minted one. -/
theorem test_witness_allocate :
    Params.default.wf ∧ bank.wf ∧ bank.fits Params.default ∧
    (∃ m', bank.allocate Params.default 7#32 = .ok (3#32, m')) ∧
    (full 0 0 0).mem.wf ∧ (full 0 0 0).mem.fits Params.default ∧
    ∃ m', (full 0 0 0).mem.allocate Params.default 7#32 = .ok (2#32, m') :=
  ⟨by decide, by decide, by decide, ⟨_, rfl⟩, by decide, by decide, ⟨_, rfl⟩⟩

/-- `ProgramSwapIsACopy`, with a write to each array afterwards. -/
theorem test_witness_swap :
    (1#32 : Word) ≠ 0#32 ∧ bank.array? 1#32 = some (WordArray.ofWords [0x11, 0x22, 0x33]) ∧
    ∃ m', bank.replaceProgram 1#32 = .ok m' ∧ (∃ m'', m'.write 0#32 2#32 5#32 = .ok m'') ∧
      ∃ m'', m'.write 1#32 2#32 5#32 = .ok m'' :=
  ⟨by decide, rfl, _, rfl, ⟨_, rfl⟩, ⟨_, rfl⟩⟩

/-- `EqualArraysAreEqualData`: one array built in two ways. -/
theorem test_witness_arrays :
    (WordArray.ofWords [0#32, 7#32]).wf ∧ ((WordArray.zeros 2).set 1 7#32).wf ∧
    (WordArray.ofWords [0#32, 7#32]).len = ((WordArray.zeros 2).set 1 7#32).len ∧
    ∀ i, i < 2 → (WordArray.ofWords [0#32, 7#32]).get i = ((WordArray.zeros 2).set 1 7#32).get i := by
  decide

/-- `ResetMeetsTheInvariant`: an image as long as the longest array. -/
theorem test_witness_boot :
    (full 0 0 0).params.wf ∧ [1#32, 2#32, 3#32, 4#32].length ≤ (full 0 0 0).params.maxArrayWords := by
  decide

/-- `ImageBytesAreBigEndian`: a whole group and a partial one. -/
theorem test_witness_image :
    [0xD0#8, 0#8, 0#8, 0x48#8].length % 4 = 0 ∧ [0xD0#8].length % 4 ≠ 0 ∧
    loadImage [0xD0#8, 0#8, 0#8, 0x48#8] = .ok [0xD0000048#32] := ⟨by decide, by decide, rfl⟩

/-- `EveryStepKeepsTheInvariant`, `OneAnswerPerInput`, `RegistersChangeOnlyAsDestinations`,
`OutTraceIsNeverRead`: an `IN`. -/
theorem test_witness_step_in :
    (at' 0xB0000001 (core 0 0 0)).Inv ∧
    step (at' 0xB0000001 (core 0 0 0)) = .next (ran 0xB0000001 (core 0 0 0)) ∧
    (ran 0xB0000001 (core 0 0 0)).reg 1 ≠ (at' 0xB0000001 (core 0 0 0)).reg 1 :=
  ⟨by decide, rfl, by decide⟩

/-- `OneAnswerPerInput`, `RegistersChangeOnlyAsDestinations`: an `IN` that waited; and
`EveryStepKeepsTheInvariant` for a waiting core. -/
theorem test_witness_step_wait :
    (waits 1).Inv ∧ step (waits 1) = .next (after State.reset (step (waits 1))) ∧
    (after State.reset (step (waits 1))).reg 1 ≠ (waits 1).reg 1 ∧
    (waits 2).Inv ∧ step (waits 2) = .next (waits 2) := ⟨by decide, rfl, by decide, by decide, rfl⟩

/-- `SlotCountNeverFalls`: an `ALLOC` that mints, and what makes it mint. -/
theorem test_witness_step_mint :
    step (at' 0x80000011 State.reset) = .next (ran 0x80000011 State.reset) ∧
    (ran 0x80000011 State.reset).mem.count = 2 ∧ (at' 0x80000011 State.reset).waiting = none ∧
    (at' 0x80000011 State.reset).mem.free = [] ∧
    (at' 0x80000011 State.reset).mem.read 0#32 0#32 = .ok 0x80000011#32 ∧
    decode 0x80000011#32 = .ok (.alloc 2 1) ∧
    allocAdmits Params.default (at' 0x80000011 State.reset).mem 0#32 = true :=
  ⟨rfl, by decide, rfl, rfl, rfl, rfl, by decide⟩

/-- `OutTraceOnlyGrows`, `OutTraceIsNeverRead`, `OnlyHaltAndFaultsEndARun`: an `OUT`. -/
theorem test_witness_step_out :
    step (at' 0xA0000001 (core 72 0 0)) = .next (ran 0xA0000001 (core 72 0 0)) ∧
    (ran 0xA0000001 (core 72 0 0)).out = [72#8] := ⟨rfl, by decide⟩

/-- `WordsChangeOnlyByTheirInstructions`: a word stored over, abandoned and swapped away. -/
theorem test_witness_words_change :
    (at' 0x20000053 (core 1 2 9)).Inv ∧
    step (at' 0x20000053 (core 1 2 9)) = .next (ran 0x20000053 (core 1 2 9)) ∧
    (at' 0x20000053 (core 1 2 9)).mem.read 1#32 2#32 = .ok 0x33#32 ∧
    (ran 0x20000053 (core 1 2 9)).mem.read 1#32 2#32 = .ok 9#32 ∧
    (at' 0x90000001 (core 1 2 9)).Inv ∧
    step (at' 0x90000001 (core 1 2 9)) = .next (ran 0x90000001 (core 1 2 9)) ∧
    (ran 0x90000001 (core 1 2 9)).mem.read 1#32 2#32 = .error .invalidHandle ∧
    (at' 0xC0000008 (core 1 2 9)).Inv ∧
    step (at' 0xC0000008 (core 1 2 9)) = .next (ran 0xC0000008 (core 1 2 9)) ∧
    (at' 0xC0000008 (core 1 2 9)).mem.read 0#32 1#32 = .ok 0xE0000000#32 ∧
    (ran 0xC0000008 (core 1 2 9)).mem.read 0#32 1#32 = .ok 0x22#32 :=
  ⟨by decide, rfl, rfl, rfl, by decide, rfl, rfl, by decide, rfl, rfl, rfl⟩

/-- `LastOffsetIsNeverFetched`. -/
theorem test_witness_last_offset :
    ({ core 0 0 0 with pc := 0xFFFFFFFF#32 } : State).Inv ∧
    ({ core 0 0 0 with pc := 0xFFFFFFFF#32 } : State).status = .running ∧
    ({ core 0 0 0 with pc := 0xFFFFFFFF#32 } : State).waiting = none := by decide

end Sys2Proof.Machine.Tests
end

section
/-! What executing an instruction, and a step, can have done, said once: the case split the statements
below about every step rest on. -/

namespace Sys2Proof.Machine

variable {s t : State} {i : Instr}

/-! ### What an instruction can do -/

/-- The destination of an instruction whose only effect, where it does not fault, is to write one
register from values the state already holds (30_encoding.md R64). -/
def resultReg? : Instr → Option Reg
  | .cmov a _ _ => some a
  | .aidx a _ _ => some a
  | .add a _ _ => some a
  | .mul a _ _ => some a
  | .div a _ _ => some a
  | .nand a _ _ => some a
  | .orth d _ => some d
  | _ => none

/-- What `exec` can have done, by the kind of effect. A `CMOV` that moves nothing is the write of the
value its register holds. -/
inductive Effect (s : State) : Instr → State → Prop
  | raises {i : Instr} (k : FaultKind) (hin : ∀ c, i ≠ .inp c)
      (hno : ∀ b c, i = .alloc b c → allocAdmits s.params s.mem (s.reg c) = false) :
      Effect s i (s.raise k)
  | writes {i : Instr} {r : Reg} (v : Word) (hr : resultReg? i = some r) : Effect s i (s.setReg r v)
  | stores {a b c : Reg} {m : Memory} (hm : s.mem.write (s.reg a) (s.reg b) (s.reg c) = .ok m) :
      Effect s (.amend a b c) (s.setMem m)
  | allocates {b c : Reg} {h : Word} {m : Memory}
      (hm : s.mem.allocate s.params (s.reg c) = .ok (h, m)) :
      Effect s (.alloc b c) ((s.setMem m).setReg b h)
  | releases {c : Reg} {m : Memory} (hm : s.mem.release (s.reg c) = .ok m) :
      Effect s (.abandon c) (s.setMem m)
  | swaps {b c : Reg} {m : Memory} (hm : s.mem.replaceProgram (s.reg b) = .ok m) :
      Effect s (.loadprog b c) ((s.setMem m).setPc (s.reg c))
  | emits {c : Reg} (hc : (s.reg c).toNat ≤ 255) :
      Effect s (.out c) (s.consoleWrite (lowByte (s.reg c)))
  | receives (c : Reg) : Effect s (.inp c) (s.receive c)
  | halts : Effect s .halt (s.setStatus .halted)

/-- A fault of an instruction that is neither `IN` nor `ALLOC`. -/
theorem Effect.raises_plain (k : FaultKind) (hin : ∀ c, i ≠ .inp c) (hal : ∀ b c, i ≠ .alloc b c) :
    Effect s i (s.raise k) :=
  .raises k hin fun b c e => absurd e (hal b c)

/-- The inversion of `exec` (40_step.md R83). -/
theorem exec_effect (h : exec i s = .next t) : Effect s i t := by
  cases i with
  | cmov a b c =>
    obtain ⟨-, rfl⟩ | ⟨-, rfl⟩ := execCmov_eq_next.1 h
    · exact .writes _ rfl
    · simpa only [State.setReg_self] using Effect.writes (s := t) (i := .cmov a b c) (t.reg a) rfl
  | aidx a b c =>
    obtain ⟨k, -, rfl⟩ | ⟨v, -, rfl⟩ := execAidx_eq_next.1 h
    · exact .raises_plain k nofun nofun
    · exact .writes v rfl
  | amend a b c =>
    obtain ⟨k, -, rfl⟩ | ⟨m, hm, rfl⟩ := execAmend_eq_next.1 h
    · exact .raises_plain k nofun nofun
    · exact .stores hm
  | add a b c => exact execAdd_eq_next.1 h ▸ .writes _ rfl
  | mul a b c => exact execMul_eq_next.1 h ▸ .writes _ rfl
  | div a b c =>
    obtain ⟨-, rfl⟩ | ⟨-, rfl⟩ := execDiv_eq_next.1 h
    · exact .raises_plain _ nofun nofun
    · exact .writes _ rfl
  | nand a b c => exact execNand_eq_next.1 h ▸ .writes _ rfl
  | halt => exact execHalt_eq_next.1 h ▸ .halts
  | alloc b c =>
    obtain ⟨hno, rfl⟩ | ⟨g, m, hm, rfl⟩ := execAlloc_eq_next.1 h
    · exact .raises _ nofun fun b' c' e => by cases e; exact hno
    · exact .allocates hm
  | abandon c =>
    obtain ⟨-, rfl⟩ | ⟨m, hm, rfl⟩ := execAbandon_eq_next.1 h
    · exact .raises_plain _ nofun nofun
    · exact .releases hm
  | out c =>
    obtain ⟨hc, rfl⟩ | ⟨-, rfl⟩ := execOut_eq_next.1 h
    · exact .emits hc
    · exact .raises_plain _ nofun nofun
  | inp c => exact execInp_eq_next.1 h ▸ .receives c
  | loadprog b c =>
    obtain ⟨-, -, rfl⟩ | ⟨m, hm, rfl⟩ := execLoadprog_eq_next.1 h
    · exact .raises_plain _ nofun nofun
    · exact .swaps hm
  | orth d imm => exact execOrth_eq_next.1 h ▸ .writes _ rfl

/-- What a step of a running core can have done (40_step.md R80, 45_console.md R135). -/
inductive StepEffect (s : State) : State → Prop
  | resumes (c : Reg) (hw : s.waiting = some c) : StepEffect s (s.receive c)
  | fetchFails (k : FaultKind) (hw : s.waiting = none) (hf : s.fetch = .error k) :
      StepEffect s (s.raise k)
  | decodeFails {w : Word} {e : DecodeError} (hw : s.waiting = none) (hf : s.fetch = .ok w)
      (hd : decode w = .error e) : StepEffect s (s.advance.raise .invalidOpcode)
  | executes {w : Word} {i : Instr} {t : State} (hw : s.waiting = none) (hf : s.fetch = .ok w)
      (hd : decode w = .ok i) (he : Effect s.advance i t) : StepEffect s t

/-- The inversion of the step. -/
theorem step_effect (h : step s = .next t) : s.status = .running ∧ StepEffect s t := by
  obtain ⟨hrun, ⟨hw, hcyc⟩ | ⟨c, hw, rfl⟩⟩ := step_eq_next.1 h
  · obtain ⟨k, hf, rfl⟩ | ⟨w, e, hf, hd, rfl⟩ | ⟨w, i, hf, hd, hx⟩ := State.cycle_eq_next.1 hcyc
    · exact ⟨hrun, .fetchFails k hw hf⟩
    · exact ⟨hrun, .decodeFails hw hf hd⟩
    · exact ⟨hrun, .executes hw hf hd (exec_effect hx)⟩
  · exact ⟨hrun, .resumes c hw⟩

end Sys2Proof.Machine
end

section
/-! 10_state.md R20: the invariant holds after reset and is kept by every step and every answer
supplied. -/

namespace Sys2Proof.Machine

variable {s t : State} {i : Instr}

theorem State.recordOk_iff : s.recordOk = true ↔ ∀ k f, s.status = .faulted k f → f = s.pc := by
  unfold State.recordOk
  cases s.status <;> simp

theorem State.consoleOk_iff :
    s.consoleOk = true ↔
      s.inPos ≤ s.consoleIn.length ∧ (s.waiting = none ∨ s.status = .running) := by
  simp [State.consoleOk]

/-- The part of the invariant about the Memory Bank: the parameters, the bank's own invariants and the
bounds (10_state.md R19, R20). -/
def State.BankOk (s : State) : Prop := s.params.wf ∧ s.mem.wf ∧ s.mem.fits s.params

theorem State.inv_iff :
    s.Inv ↔ s.BankOk ∧ (∀ k f, s.status = .faulted k f → f = s.pc) ∧
      s.inPos ≤ s.consoleIn.length ∧ (s.waiting = none ∨ s.status = .running) := by
  simp only [State.Inv, State.BankOk, State.recordOk_iff, State.consoleOk_iff, and_assoc]

/-- The bank's part of the invariant reads the parameters and the bank only. -/
theorem State.BankOk.congr (hs : s.BankOk) (hp : t.params = s.params) (hm : t.mem = s.mem) :
    t.BankOk := by
  unfold State.BankOk
  rw [hp, hm]
  exact hs

/-- A running core's invariant: nothing is asked of the fault record, and it may wait. -/
theorem State.inv_of_running (hb : t.BankOk) (hst : t.status = .running)
    (hpos : t.inPos ≤ t.consoleIn.length) : t.Inv :=
  State.inv_iff.2 ⟨hb, fun k f e => by simp [hst] at e, hpos, .inr hst⟩

/-! ### The console -/

/-- `ConsoleRead` consumes no answer that was not supplied (45_console.md R133). -/
theorem State.receive_inPos_le (c : Reg) (hpos : s.inPos ≤ s.consoleIn.length) :
    (s.receive c).inPos ≤ (s.receive c).consoleIn.length := by
  cases ha : s.nextAnswer with
  | none => simpa [State.receive_of_none s c ha] using hpos
  | some a =>
    have hlt : s.inPos < s.consoleIn.length := (List.getElem?_eq_some_iff.1 ha).1
    simpa [State.receive_of_some s c a ha] using hlt

theorem State.receive_inv (c : Reg) (hs : s.Inv) (hrun : s.status = .running) :
    (s.receive c).Inv := by
  obtain ⟨hb, -, hpos, -⟩ := State.inv_iff.1 hs
  exact State.inv_of_running (hb.congr (by simp) (by simp)) (by simpa using hrun)
    (State.receive_inPos_le c hpos)

/-- The fault entry records the finger, so a core that does not wait keeps the invariant. -/
theorem State.raise_inv (k : FaultKind) (hs : s.Inv) (hw : s.waiting = none) : (s.raise k).Inv := by
  obtain ⟨hb, -, hpos, -⟩ := State.inv_iff.1 hs
  exact State.inv_iff.2 ⟨hb, fun _ _ e => by cases e; rfl, hpos, .inl hw⟩

theorem State.advance_inv (hs : s.Inv) (hrun : s.status = .running) : s.advance.Inv := by
  obtain ⟨hb, -, hpos, -⟩ := State.inv_iff.1 hs
  exact State.inv_of_running hb hrun hpos

theorem State.supply_inv (a : ConsoleAnswer) (hs : s.Inv) : (s.supply a).Inv := by
  obtain ⟨hb, hrec, hpos, hwait⟩ := State.inv_iff.1 hs
  exact State.inv_iff.2 ⟨hb, hrec, by simpa using Nat.le_succ_of_le hpos, hwait⟩

/-! ### The Memory Bank -/

/-- A running core with another bank that meets the invariant. -/
theorem State.setMem_inv {m : Memory} (hs : s.Inv) (hrun : s.status = .running) (hm : m.wf)
    (hf : m.fits s.params) : (s.setMem m).Inv := by
  obtain ⟨⟨hp, -, -⟩, -, hpos, -⟩ := State.inv_iff.1 hs
  exact State.inv_of_running ⟨hp, hm, hf⟩ hrun hpos

/-! ### Every instruction and every step -/

/-- A register is no part of the invariant. -/
theorem State.setReg_inv (r : Reg) (v : Word) (hs : s.Inv) : (s.setReg r v).Inv := hs

/-- Nor is the finger, of a running core. -/
theorem State.setPc_inv (v : Word) (hs : s.Inv) (hrun : s.status = .running) : (s.setPc v).Inv := by
  obtain ⟨hb, -, hpos, -⟩ := State.inv_iff.1 hs
  exact State.inv_of_running hb hrun hpos

theorem Effect.keeps_inv (h : Effect s i t) (hs : s.Inv) (hrun : s.status = .running)
    (hw : s.waiting = none) : t.Inv := by
  obtain ⟨⟨hp, hm, hf⟩, -, hpos, -⟩ := State.inv_iff.1 hs
  cases h with
  | raises k => exact State.raise_inv k hs hw
  | writes v => exact State.setReg_inv _ v hs
  | stores hst => exact State.setMem_inv hs hrun (Memory.write_wf hm hst) (Memory.write_fits hf hst)
  | allocates hal =>
    exact State.setReg_inv _ _
      (State.setMem_inv hs hrun (Memory.allocate_wf hp hm hf hal) (Memory.allocate_fits hf hal))
  | releases hre =>
    exact State.setMem_inv hs hrun (Memory.release_wf hm hre) (Memory.release_fits hf hre)
  | swaps hsw =>
    exact State.setPc_inv _
      (State.setMem_inv hs hrun (Memory.replaceProgram_wf hm hsw)
        (Memory.replaceProgram_fits hf hsw)) hrun
  | emits => exact hs
  | receives c => exact State.receive_inv c hs hrun
  | halts => exact State.inv_iff.2 ⟨⟨hp, hm, hf⟩, nofun, hpos, .inl hw⟩

theorem StepEffect.keeps_inv (h : StepEffect s t) (hs : s.Inv) (hrun : s.status = .running) :
    t.Inv := by
  have hadv := State.advance_inv hs hrun
  cases h with
  | resumes c => exact State.receive_inv c hs hrun
  | fetchFails k hw => exact State.raise_inv k hs hw
  | decodeFails hw => exact State.raise_inv _ hadv hw
  | executes hw _ _ he => exact he.keeps_inv hadv hrun hw

/-- Settles O49: the step's inversion, and for each effect the operation that keeps the invariant. -/
theorem everyStepKeepsTheInvariant : Obligations.EveryStepKeepsTheInvariant := by
  unfold Obligations.EveryStepKeepsTheInvariant
  refine ⟨fun s t hs h => ?_, fun s a hs => State.supply_inv a hs⟩
  obtain ⟨hrun, he⟩ := step_effect h
  exact he.keeps_inv hs hrun

/-! ### Reset -/

/-- The bank of a machine with one array. -/
def Memory.single (a : WordArray) : Memory := { slots := [.live a], free := [] }

theorem Memory.mem_arrays_single {a b : WordArray} : b ∈ (Memory.single a).arrays ↔ b = a := by
  simp [Memory.mem_arrays, Memory.single]

theorem Memory.single_wf {a : WordArray} (ha : a.wf) : (Memory.single a).wf := by
  refine ⟨rfl, fun k hk hs => ?_, rfl, List.nodup_nil, fun b hb => ?_⟩
  · have h0 : k = 0 := by simpa [Memory.single] using hk
    subst h0
    simp [Memory.single] at hs
  · exact Memory.mem_arrays_single.1 hb ▸ ha

theorem Memory.single_fits {p : Params} (hp : p.wf) {a : WordArray} (ha : a.len ≤ p.maxArrayWords) :
    (Memory.single a).fits p :=
  ⟨hp.1, fun _ hb => Memory.mem_arrays_single.1 hb ▸ ha⟩

theorem State.boot_mem (p : Params) (answers : List ConsoleAnswer) (image : List Word) :
    (State.boot p answers image).mem = Memory.single (WordArray.ofWords image) := rfl

theorem State.boot_bankOk {p : Params} (answers : List ConsoleAnswer) {image : List Word} (hp : p.wf)
    (hlen : image.length ≤ p.maxArrayWords) : (State.boot p answers image).BankOk := by
  unfold State.BankOk
  rw [State.boot_mem]
  exact ⟨hp, Memory.single_wf (WordArray.ofWords_wf image), Memory.single_fits hp hlen⟩

/-- Reset with an image that fits meets the invariant (70_reset_and_hazards.md R171, R175). -/
theorem State.boot_inv {p : Params} (answers : List ConsoleAnswer) {image : List Word} (hp : p.wf)
    (hlen : image.length ≤ p.maxArrayWords) : (State.boot p answers image).Inv :=
  State.inv_of_running (State.boot_bankOk answers hp hlen) rfl (Nat.zero_le _)

theorem Params.default_wf : Params.default.wf := by decide

theorem State.reset_eq_boot : State.reset = State.boot Params.default [] [] := rfl

/-- Settles O47: reset is a boot with the empty image, and a boot that fits meets the invariant. -/
theorem resetMeetsTheInvariant : Obligations.ResetMeetsTheInvariant := by
  unfold Obligations.ResetMeetsTheInvariant
  refine ⟨?_, State.reset_eq_boot, fun p answers image hp hlen =>
    ⟨State.boot_inv answers hp hlen, rfl, rfl, rfl, rfl, rfl⟩⟩
  rw [State.reset_eq_boot]
  exact State.boot_inv [] Params.default_wf (Nat.zero_le _)

end Sys2Proof.Machine
end

section
/-! 10_state.md R16: the stored form of an array against the spec's sequence of words (log 1). -/

namespace Sys2Proof.Machine

/-! ### The sequence of words -/

@[simp] theorem WordArray.words_length (x : WordArray) : x.words.length = x.len := by
  simp [WordArray.words]

theorem WordArray.words_getElem? (x : WordArray) (k : Nat) :
    x.words[k]? = if k < x.len then some (x.get k) else none := by
  by_cases h : k < x.len <;> simp [WordArray.words, h]

theorem WordArray.zeros_words (n : Nat) : (WordArray.zeros n).words = List.replicate n 0#32 := by
  refine List.ext_getElem? fun k => ?_
  rw [WordArray.words_getElem?, List.getElem?_replicate, WordArray.zeros_len, WordArray.zeros_get]

theorem WordArray.ofWords_words (ws : List Word) : (WordArray.ofWords ws).words = ws := by
  refine List.ext_getElem? fun k => ?_
  rw [WordArray.words_getElem?, WordArray.ofWords_get, WordArray.ofWords_len]
  by_cases h : k < ws.length <;> simp [h]

theorem WordArray.set_words (x : WordArray) (i : Nat) (v : Word) :
    (x.set i v).words = x.words.set i v := by
  refine List.ext_getElem? fun k => ?_
  rw [WordArray.words_getElem?, WordArray.get_set, WordArray.set_len, List.getElem?_set,
    WordArray.words_getElem?, WordArray.words_length]
  by_cases hk : k = i
  · subst hk; simp
  · simp [hk, Ne.symm hk]

/-- Settles O45, word by word: each operation has the length and the words of the sequence's. -/
theorem storedArrayRefinesTheSequence : Obligations.StoredArrayRefinesTheSequence := by
  unfold Obligations.StoredArrayRefinesTheSequence
  exact ⟨WordArray.zeros_words, WordArray.ofWords_words, WordArray.set_words⟩

/-! ### The canonical form -/

/-- Cells with rising indices are found by their index. -/
theorem lookupCell_of_mem {l : List (Nat × Word)} (hl : l.Pairwise (fun c d => c.1 < d.1))
    {c : Nat × Word} (hc : c ∈ l) : lookupCell l c.1 = c.2 := by
  induction l with
  | nil => cases hc
  | cons d t ih =>
    obtain ⟨hd, ht⟩ := List.pairwise_cons.1 hl
    rcases List.mem_cons.1 hc with rfl | hc
    · simp [lookupCell]
    · rw [lookupCell, if_neg (Nat.ne_of_lt (hd c hc)), ih ht hc]

/-- A word that is not 0 is listed. -/
theorem mem_of_lookupCell_ne_zero {l : List (Nat × Word)} {i : Nat} (h : lookupCell l i ≠ 0#32) :
    (i, lookupCell l i) ∈ l := by
  induction l with
  | nil => exact absurd rfl h
  | cons d t ih =>
    by_cases hd : d.1 = i
    · subst hd; simp [lookupCell]
    · rw [lookupCell, if_neg hd] at h ⊢
      exact List.mem_cons_of_mem _ (ih h)

/-- The cells of a canonical array are exactly its words that are not 0. -/
theorem WordArray.mem_cells_iff {x : WordArray} (hx : x.wf) {c : Nat × Word} :
    c ∈ x.cells ↔ x.get c.1 = c.2 ∧ c.2 ≠ 0#32 := by
  obtain ⟨hsorted, hcells⟩ := hx
  constructor
  · exact fun hc => ⟨lookupCell_of_mem hsorted hc, (hcells c hc).2⟩
  · rintro ⟨hget, hne⟩
    have hmem := mem_of_lookupCell_ne_zero (l := x.cells) (i := c.1) (by rwa [← hget] at hne)
    rwa [show lookupCell x.cells c.1 = c.2 from hget] at hmem

/-- Past its length a canonical array lists nothing. -/
theorem WordArray.get_of_len_le {x : WordArray} (hx : x.wf) {i : Nat} (hi : x.len ≤ i) :
    x.get i = 0#32 :=
  lookupCell_of_absent fun c hc => Nat.ne_of_lt (Nat.lt_of_lt_of_le (hx.2 c hc).1 hi)

/-- Canonical arrays with the same length and words read the same at every index. -/
theorem WordArray.get_eq_of_words {x y : WordArray} (hx : x.wf) (hy : y.wf) (hlen : x.len = y.len)
    (hget : ∀ i, i < x.len → x.get i = y.get i) (i : Nat) : x.get i = y.get i := by
  by_cases hi : i < x.len
  · exact hget i hi
  · rw [WordArray.get_of_len_le hx (Nat.le_of_not_lt hi),
      WordArray.get_of_len_le hy (hlen ▸ Nat.le_of_not_lt hi)]

/-- Lists of cells with rising indices and the same cells are equal. -/
theorem cells_eq_of_mem_iff {l k : List (Nat × Word)} (hl : l.Pairwise (fun c d => c.1 < d.1))
    (hk : k.Pairwise (fun c d => c.1 < d.1)) (h : ∀ c, c ∈ l ↔ c ∈ k) : l = k :=
  have : Std.Antisymm (fun c d : Nat × Word => c.1 < d.1) :=
    ⟨fun _ _ hcd hdc => absurd hdc (Nat.lt_asymm hcd)⟩
  have : Std.Irrefl (fun c d : Nat × Word => c.1 < d.1) := ⟨fun c => Nat.lt_irrefl c.1⟩
  hl.eq_of_mem_iff hk h

/-- Settles O44: the words fix the cells, and sorted cells are fixed by which they are. -/
theorem equalArraysAreEqualData : Obligations.EqualArraysAreEqualData := by
  unfold Obligations.EqualArraysAreEqualData
  intro x y hx hy hlen hget
  have hcells : x.cells = y.cells := cells_eq_of_mem_iff hx.1 hy.1 fun c => by
    rw [WordArray.mem_cells_iff hx, WordArray.mem_cells_iff hy,
      WordArray.get_eq_of_words hx hy hlen hget]
  cases x
  cases y
  cases hlen
  cases hcells
  rfl

end Sys2Proof.Machine
end

section
/-! 10_state.md R14, R19: what each effect does to `N`. -/

namespace Sys2Proof.Machine

variable {s t : State} {i : Instr}

/-! ### The bank's operations -/

theorem Memory.write_count {m m' : Memory} {h i v : Word} (hw : m.write h i v = .ok m') :
    m'.count = m.count := by
  obtain ⟨a, -, -, rfl⟩ := Memory.write_eq_ok.1 hw
  exact Memory.setArray_count m h _

theorem Memory.release_count {m m' : Memory} {h : Word} (hr : m.release h = .ok m') :
    m'.count = m.count := by
  obtain ⟨-, -, rfl⟩ := Memory.release_eq_ok.1 hr
  simp [Memory.count]

theorem Memory.replaceProgram_count {m m' : Memory} {h : Word} (hr : m.replaceProgram h = .ok m') :
    m'.count = m.count := by
  obtain ⟨-, rfl⟩ | ⟨-, a, -, rfl⟩ := Memory.replaceProgram_eq_ok.1 hr
  · rfl
  · exact Memory.setArray_count m 0#32 a

/-- An allocation mints a slot exactly where the free list is empty (20_memory.md R39). -/
theorem Memory.allocate_count {p : Params} {m m' : Memory} {size h : Word}
    (ha : m.allocate p size = .ok (h, m')) :
    (m.free = [] ∧ m'.count = m.count + 1) ∨ (m.free ≠ [] ∧ m'.count = m.count) := by
  obtain ⟨-, ⟨rest, hfr, rfl⟩ | ⟨hfr, -, rfl⟩⟩ := Memory.allocate_eq_ok.1 ha
  · exact .inr ⟨by simp [hfr], by simp [Memory.count]⟩
  · exact .inl ⟨hfr, by simp [Memory.count]⟩

/-! ### Every instruction and every step -/

/-- Executing `i` mints a handle: an `ALLOC` that is admitted while the free list is empty. -/
def State.Mints (s : State) (i : Instr) : Prop :=
  s.mem.free = [] ∧ ∃ b c, i = .alloc b c ∧ allocAdmits s.params s.mem (s.reg c) = true

theorem State.not_mints_of_ne_alloc (hi : ∀ b c, i ≠ .alloc b c) : ¬ s.Mints i :=
  fun ⟨_, b, c, e, _⟩ => hi b c e

/-- `N` rises by one where a handle is minted, and stays elsewhere. -/
def State.CountFollows (s t : State) (mints : Prop) : Prop :=
  (mints ∧ t.mem.count = s.mem.count + 1) ∨ (¬ mints ∧ t.mem.count = s.mem.count)

theorem State.countFollows_iff {mints : Prop} (h : s.CountFollows t mints) :
    (t.mem.count = s.mem.count ∨ t.mem.count = s.mem.count + 1) ∧
    (t.mem.count = s.mem.count + 1 ↔ mints) := by
  obtain ⟨hm, hc⟩ | ⟨hm, hc⟩ := h
  · exact ⟨.inr hc, by simp [hc, hm]⟩
  · exact ⟨.inl hc, by simp [hc, hm]⟩

theorem Effect.count (h : Effect s i t) : s.CountFollows t (s.Mints i) := by
  cases h with
  | raises k _ hno =>
    refine .inr ⟨?_, rfl⟩
    rintro ⟨-, b, c, rfl, hadm⟩
    simp [hno b c rfl] at hadm
  | writes v hr =>
    exact .inr ⟨State.not_mints_of_ne_alloc fun b c e => by simp [e, resultReg?] at hr, rfl⟩
  | stores hm => exact .inr ⟨State.not_mints_of_ne_alloc nofun, Memory.write_count hm⟩
  | @allocates b c g m hm =>
    have hadm := (Memory.allocate_eq_ok.1 hm).1
    obtain ⟨hfr, hc⟩ | ⟨hfr, hc⟩ := Memory.allocate_count hm
    · exact .inl ⟨⟨hfr, b, c, rfl, hadm⟩, hc⟩
    · exact .inr ⟨fun hmint => hfr hmint.1, hc⟩
  | releases hm => exact .inr ⟨State.not_mints_of_ne_alloc nofun, Memory.release_count hm⟩
  | swaps hm => exact .inr ⟨State.not_mints_of_ne_alloc nofun, Memory.replaceProgram_count hm⟩
  | emits => exact .inr ⟨State.not_mints_of_ne_alloc nofun, rfl⟩
  | receives => exact .inr ⟨State.not_mints_of_ne_alloc nofun, by simp⟩
  | halts => exact .inr ⟨State.not_mints_of_ne_alloc nofun, rfl⟩

/-- The step fetches an instruction that mints a handle. -/
def State.StepMints (s : State) : Prop :=
  s.waiting = none ∧ s.mem.free = [] ∧ ∃ w b c, s.mem.read 0#32 s.pc = .ok w ∧
    decode w = .ok (.alloc b c) ∧ allocAdmits s.params s.mem (s.reg c) = true

/-- The step mints exactly when the instruction it fetches does. -/
theorem State.stepMints_iff {w : Word} (hw : s.waiting = none) (hf : s.fetch = .ok w)
    (hd : decode w = .ok i) : s.StepMints ↔ s.advance.Mints i := by
  constructor
  · rintro ⟨-, hfr, w', b, c, hf', hd', hadm⟩
    have e : w = w' := Except.ok.inj (hf.symm.trans hf')
    subst e
    exact ⟨hfr, b, c, Except.ok.inj (hd.symm.trans hd'), hadm⟩
  · rintro ⟨hfr, b, c, rfl, hadm⟩
    exact ⟨hw, hfr, w, b, c, hf, hd, hadm⟩

theorem StepEffect.count (h : StepEffect s t) : s.CountFollows t s.StepMints := by
  cases h with
  | resumes c hw => exact .inr ⟨fun hm => by simp [hm.1] at hw, by simp⟩
  | fetchFails k hw hf =>
    refine .inr ⟨?_, rfl⟩
    rintro ⟨-, -, w, b, c, hf', -⟩
    cases hf.symm.trans hf'
  | decodeFails hw hf hd =>
    refine .inr ⟨?_, rfl⟩
    rintro ⟨-, -, w, b, c, hf', hd', -⟩
    cases hf.symm.trans hf'
    cases hd.symm.trans hd'
  | executes hw hf hd he =>
    unfold State.CountFollows
    rw [State.stepMints_iff hw hf hd]
    exact he.count

/-- Settles O50: `N` follows the minting, effect by effect. -/
theorem slotCountNeverFalls : Obligations.SlotCountNeverFalls := by
  unfold Obligations.SlotCountNeverFalls
  exact fun s t h => State.countFollows_iff (step_effect h).2.count

end Sys2Proof.Machine
end

section
/-! 10_state.md R22, 45_console.md R132: the `OUT` trace grows only by an `OUT`, and is never read. -/

namespace Sys2Proof.Machine

variable {s t : State} {i : Instr}

/-! ### Growth -/

/-- The byte `OUT` emits is its operand's value (45_console.md R130). -/
theorem lowByte_toNat {v : Word} (hv : v.toNat ≤ 255) : (lowByte v).toNat = v.toNat := by
  simp only [lowByte, BitVec.extractLsb'_toNat, Nat.shiftRight_zero]
  omega

theorem Effect.out (h : Effect s i t) :
    t.out = s.out ∨
      ∃ c, i = .out c ∧ (s.reg c).toNat ≤ 255 ∧ t.out = s.out ++ [lowByte (s.reg c)] := by
  cases h with
  | @emits c hc => exact .inr ⟨c, rfl, hc, rfl⟩
  | receives c => exact .inl (State.receive_out s c)
  | _ => exact .inl rfl

/-- Settles O51: of the step's effects, only that of a fetched `OUT` touches the trace. -/
theorem outTraceOnlyGrows : Obligations.OutTraceOnlyGrows := by
  unfold Obligations.OutTraceOnlyGrows
  intro s t h
  cases (step_effect h).2 with
  | resumes c => exact .inl (State.receive_out s c)
  | fetchFails => exact .inl rfl
  | decodeFails => exact .inl rfl
  | executes _ hf hd he =>
    obtain hsame | ⟨c, rfl, hc, hout⟩ := he.out
    · exact .inl hsame
    · exact .inr ⟨_, c, _, hf, hd, hout, lowByte_toNat hc⟩

/-! ### The trace is not read

Bytes put before the trace commute with the step. Two states that differ in the trace only are both
the state with the empty trace, with different bytes put before it. -/

/-- `s` with the bytes `p` put before its `OUT` trace. -/
def State.outAfter (p : List Byte) (s : State) : State := { s with out := p ++ s.out }

/-- An answer with its next state, where there is one, changed by `f`. -/
def mapNext (f : State → State) : Answer → Answer
  | .next s => .next (f s)
  | .fault r => .fault r
  | .refused r => .refused r

theorem attempt_outAfter {α : Type} {p : List Byte} {r : Except FaultKind α} {f g : α → State}
    (hfg : ∀ x, g x = (f x).outAfter p) :
    (s.outAfter p).attempt r g = mapNext (State.outAfter p) (s.attempt r f) := by
  cases r with
  | error k => rfl
  | ok x => exact congrArg Host.Outcome.next (hfg x)

theorem receive_outAfter (p : List Byte) (c : Reg) :
    (s.outAfter p).receive c = (s.receive c).outAfter p := by
  have hsame : (s.outAfter p).nextAnswer = s.nextAnswer := rfl
  cases ha : s.nextAnswer with
  | none => rw [State.receive_of_none _ _ ha, State.receive_of_none _ _ (hsame.trans ha)]; rfl
  | some a => rw [State.receive_of_some _ _ _ ha, State.receive_of_some _ _ _ (hsame.trans ha)]; rfl

theorem consoleWrite_outAfter (p : List Byte) (b : Byte) :
    (s.outAfter p).consoleWrite b = (s.consoleWrite b).outAfter p := by
  simp [State.consoleWrite, State.outAfter]

theorem ite_outAfter {p : List Byte} {c : Bool} {x y x' y' : Answer}
    (hx : x' = mapNext (State.outAfter p) x) (hy : y' = mapNext (State.outAfter p) y) :
    (if c then x' else y') = mapNext (State.outAfter p) (if c then x else y) := by
  cases c
  · exact hy
  · exact hx

/-- Executing an instruction commutes with bytes put before the trace. -/
theorem exec_outAfter (p : List Byte) (i : Instr) (s : State) :
    exec i (s.outAfter p) = mapNext (State.outAfter p) (exec i s) := by
  cases i with
  | cmov a b c => exact ite_outAfter rfl rfl
  | aidx a b c => exact attempt_outAfter fun _ => rfl
  | amend a b c => exact attempt_outAfter fun _ => rfl
  | add a b c => rfl
  | mul a b c => rfl
  | div a b c => exact ite_outAfter rfl rfl
  | nand a b c => rfl
  | halt => rfl
  | alloc b c => exact attempt_outAfter fun _ => rfl
  | abandon c => exact attempt_outAfter fun _ => rfl
  | out c => exact ite_outAfter (congrArg Host.Outcome.next (consoleWrite_outAfter p _)) rfl
  | inp c => exact congrArg Host.Outcome.next (receive_outAfter p c)
  | loadprog b c => exact attempt_outAfter fun _ => rfl
  | orth d imm => rfl

theorem runWord_outAfter (p : List Byte) (s : State) (w : Word) :
    (s.outAfter p).runWord w = mapNext (State.outAfter p) (s.runWord w) := by
  unfold State.runWord
  cases decode w with
  | error e => rfl
  | ok i => exact exec_outAfter p i s

theorem cycle_outAfter (p : List Byte) (s : State) :
    (s.outAfter p).cycle = mapNext (State.outAfter p) s.cycle := by
  have hsame : (s.outAfter p).fetch = s.fetch := rfl
  unfold State.cycle
  rw [hsame]
  cases s.fetch with
  | error k => rfl
  | ok w => exact runWord_outAfter p s.advance w

theorem proceed_outAfter (p : List Byte) (s : State) :
    (s.outAfter p).proceed = mapNext (State.outAfter p) s.proceed := by
  have hsame : (s.outAfter p).waiting = s.waiting := rfl
  unfold State.proceed
  rw [hsame]
  cases s.waiting with
  | none => exact cycle_outAfter p s
  | some c => exact congrArg Host.Outcome.next (receive_outAfter p c)

/-- The step commutes with bytes put before the trace. -/
theorem step_outAfter (p : List Byte) (s : State) :
    step (s.outAfter p) = mapNext (State.outAfter p) (step s) := by
  have hsame : (s.outAfter p).status = s.status := rfl
  unfold step
  rw [hsame]
  cases s.status with
  | running => exact proceed_outAfter p s
  | halted => rfl
  | faulted k f => rfl

theorem mapNext_eq_next {f : State → State} {x : Answer} (h : mapNext f x = .next t) :
    ∃ u, x = .next u ∧ t = f u := by
  cases x with
  | next u => exact ⟨u, rfl, (Host.Outcome.next.inj h).symm⟩
  | fault r => cases h
  | refused r => cases h

/-- `s` with an empty `OUT` trace. -/
def State.withoutOut (s : State) : State := { s with out := [] }

/-- A state whose trace is `o` is the state with no trace, `o` put before it. -/
theorem State.withOut_eq_outAfter (s : State) (o : List Byte) :
    ({ s with out := o } : State) = s.withoutOut.outAfter o := by
  simp [State.withoutOut, State.outAfter]

/-- Settles O52: both runs are the run from the empty trace, with different bytes put before it. -/
theorem outTraceIsNeverRead : Obligations.OutTraceIsNeverRead := by
  unfold Obligations.OutTraceIsNeverRead
  intro s t o h
  have hs : step (s.withoutOut.outAfter s.out) = .next t := by
    rw [← State.withOut_eq_outAfter s s.out]
    exact h
  obtain ⟨u, hu, rfl⟩ := mapNext_eq_next ((step_outAfter s.out s.withoutOut).symm.trans hs)
  refine ⟨u.out, rfl, ?_⟩
  rw [State.withOut_eq_outAfter s o, step_outAfter o s.withoutOut, hu]
  rfl

end Sys2Proof.Machine
end

section
/-! 10_state.md R22, 45_console.md R133, R135: exactly an `IN` consumes an answer, or waits for one. -/

namespace Sys2Proof.Machine

variable {s t : State} {i : Instr}

/-- What a step that stands at an `IN` into `c` does with the answers: it takes one, or, where none is
supplied, it waits. -/
def State.TakesOrWaits (s t : State) (c : Reg) : Prop :=
  (∃ a, s.nextAnswer = some a ∧ t.inPos = s.inPos + 1 ∧ t.waiting = none) ∨
  (s.nextAnswer = none ∧ t.inPos = s.inPos ∧ t.waiting = some c)

theorem State.receive_takesOrWaits (c : Reg) : s.TakesOrWaits (s.receive c) c := by
  cases ha : s.nextAnswer with
  | none => exact .inr ⟨ha, by simp [State.receive_of_none s c ha]⟩
  | some a => exact .inl ⟨a, ha, by simp [State.receive_of_some s c a ha]⟩

/-- The answers supplied and the parameters are the same. -/
def State.SameSupply (s t : State) : Prop := t.consoleIn = s.consoleIn ∧ t.params = s.params

theorem State.receive_sameSupply (c : Reg) : s.SameSupply (s.receive c) :=
  ⟨State.receive_consoleIn s c, State.receive_params s c⟩

theorem Effect.sameSupply (h : Effect s i t) : s.SameSupply t := by
  cases h with
  | receives c => exact State.receive_sameSupply c
  | _ => exact ⟨rfl, rfl⟩

theorem StepEffect.sameSupply (h : StepEffect s t) : s.SameSupply t := by
  cases h with
  | resumes c => exact State.receive_sameSupply c
  | fetchFails => exact ⟨rfl, rfl⟩
  | decodeFails => exact ⟨rfl, rfl⟩
  | executes _ _ _ he => exact he.sameSupply

/-- Executing an instruction is an `IN`, or leaves the position and the wait alone. -/
theorem Effect.input (h : Effect s i t) :
    (∃ c, i = .inp c ∧ t = s.receive c) ∨
    ((∀ c, i ≠ .inp c) ∧ t.inPos = s.inPos ∧ t.waiting = s.waiting) := by
  cases h with
  | receives c => exact .inl ⟨c, rfl, rfl⟩
  | raises k hin => exact .inr ⟨hin, rfl, rfl⟩
  | writes v hr => exact .inr ⟨fun c e => by simp [e, resultReg?] at hr, rfl, rfl⟩
  | _ => exact .inr ⟨nofun, rfl, rfl⟩

/-- A core that waits for nothing and fetches no `IN` stands at none. -/
theorem State.not_atInput (hw : s.waiting = none)
    (hno : ∀ w c, s.fetch = .ok w → decode w ≠ .ok (.inp c)) (c : Reg) : ¬ s.atInput c := by
  rintro (hc | ⟨-, w, hf, hd⟩)
  · cases hw.symm.trans hc
  · exact hno w c hf hd

theorem StepEffect.input (h : StepEffect s t) :
    (∃ c, s.atInput c ∧ s.TakesOrWaits t c) ∨
    ((∀ c, ¬ s.atInput c) ∧ t.inPos = s.inPos ∧ t.waiting = none) := by
  cases h with
  | resumes c hw => exact .inl ⟨c, .inl hw, State.receive_takesOrWaits c⟩
  | fetchFails k hw hf =>
    refine .inr ⟨State.not_atInput hw fun w c hf' => ?_, rfl, hw⟩
    cases hf.symm.trans hf'
  | decodeFails hw hf hd =>
    refine .inr ⟨State.not_atInput hw fun w c hf' hd' => ?_, rfl, hw⟩
    cases hf.symm.trans hf'
    cases hd.symm.trans hd'
  | @executes w i _ hw hf hd he =>
    obtain ⟨c, rfl, rfl⟩ | ⟨hin, hpos, hwait⟩ := he.input
    · exact .inl ⟨c, .inr ⟨hw, w, hf, hd⟩, State.receive_takesOrWaits (s := s.advance) c⟩
    · refine .inr ⟨State.not_atInput hw fun w' c hf' hd' => ?_, hpos, hwait.trans hw⟩
      cases hf.symm.trans hf'
      exact hin c (Except.ok.inj (hd.symm.trans hd'))

/-- Settles O53: a step at an `IN` takes an answer or waits, and any other leaves the console's input
alone. -/
theorem oneAnswerPerInput : Obligations.OneAnswerPerInput := by
  unfold Obligations.OneAnswerPerInput
  intro s t h
  have he := (step_effect h).2
  obtain ⟨hcons, hparams⟩ := he.sameSupply
  refine ⟨hcons, hparams, ?_⟩
  obtain ⟨c, hat, ⟨a, ha, hpos, hwait⟩ | ⟨ha, hpos, hwait⟩⟩ | hnot := he.input
  · exact .inl ⟨c, a, hat, ha, hpos, hwait⟩
  · exact .inr (.inl ⟨c, hat, ha, hpos, hwait⟩)
  · exact .inr (.inr hnot)

end Sys2Proof.Machine
end

section
/-! 20_memory.md R34 to R44: which arrays each operation of the Memory Bank leaves alone, and what it
makes of the one it changes. -/

namespace Sys2Proof.Machine

variable {m m' : Memory} {h g i j v : Word} {a : WordArray}

/-! ### Translation and read, from the array of the handle -/

theorem Memory.translate_of_dead (hd : m.array? h = none) :
    m.translate h i = .error .invalidHandle :=
  Memory.translate_eq_error.2 (.inl ⟨rfl, hd⟩)

theorem Memory.translate_of_len_le (ha : m.array? h = some a) (hi : a.len ≤ i.toNat) :
    m.translate h i = .error .indexError :=
  Memory.translate_eq_error.2 (.inr ⟨rfl, a, ha, hi⟩)

/-- A read looks at the array of its handle only (20_memory.md R32). -/
theorem Memory.read_congr (hs : m'.array? h = m.array? h) : m'.read h i = m.read h i := by
  simp only [Memory.read, Memory.translate, hs]

theorem Memory.read_of_dead (hd : m.array? h = none) : m.read h i = .error .invalidHandle :=
  Memory.read_eq_error.2 (Memory.translate_of_dead hd)

theorem Memory.read_of_array? (ha : m.array? h = some a) :
    m.read h i = if i.toNat < a.len then .ok (a.get i.toNat) else .error .indexError := by
  split
  · next hi => exact Memory.read_eq_ok.2 ⟨a, ha, hi, rfl⟩
  · next hi => exact Memory.read_eq_error.2 (Memory.translate_of_len_le ha (Nat.le_of_not_lt hi))

/-- A word can be read only from a live array (20_memory.md R33). -/
theorem Memory.live_of_read (hr : m.read h i = .ok v) : m.live h = true := by
  obtain ⟨a, ha, -, -⟩ := Memory.read_eq_ok.1 hr
  exact Memory.live_eq_true.2 ⟨a, ha⟩

/-! ### Replacing an array -/

theorem Memory.array?_setArray_same (hh : h.toNat < m.count) :
    (m.setArray h a).array? h = some a := by
  rw [Memory.array?_setArray, if_pos ⟨rfl, hh⟩]

theorem Memory.array?_setArray_ne (hg : g ≠ h) : (m.setArray h a).array? g = m.array? g := by
  rw [Memory.array?_setArray, if_neg fun e => hg e.1]

/-! ### Write -/

theorem Memory.write_of_lt (ha : m.array? h = some a) (hi : i.toNat < a.len) :
    m.write h i v = .ok (m.setArray h (a.set i.toNat v)) :=
  Memory.write_eq_ok.2 ⟨a, ha, hi, rfl⟩

/-- The array written to is the old one with the one word set (20_memory.md R37). -/
theorem Memory.write_array?_same (ha : m.array? h = some a) (hw : m.write h i v = .ok m') :
    m'.array? h = some (a.set i.toNat v) := by
  obtain ⟨b, hb, -, rfl⟩ := Memory.write_eq_ok.1 hw
  cases ha.symm.trans hb
  exact Memory.array?_setArray_same (Memory.lt_count_of_array? ha)

theorem Memory.write_array?_ne (hg : g ≠ h) (hw : m.write h i v = .ok m') :
    m'.array? g = m.array? g := by
  obtain ⟨a, -, -, rfl⟩ := Memory.write_eq_ok.1 hw
  exact Memory.array?_setArray_ne hg

theorem Memory.write_free (hw : m.write h i v = .ok m') : m'.free = m.free := by
  obtain ⟨a, -, -, rfl⟩ := Memory.write_eq_ok.1 hw
  rfl

/-- The word written is read back. -/
theorem Memory.read_write_same (hw : m.write h i v = .ok m') : m'.read h i = .ok v := by
  obtain ⟨a, ha, hi, -⟩ := Memory.write_eq_ok.1 hw
  exact Memory.read_eq_ok.2 ⟨_, Memory.write_array?_same ha hw, hi, by simp [WordArray.get_set]⟩

/-- Every other address reads as before, in the array written to as well. -/
theorem Memory.read_write_ne (hne : ¬(g = h ∧ j = i)) (hw : m.write h i v = .ok m') :
    m'.read g j = m.read g j := by
  by_cases hg : g = h
  · subst hg
    have hj : j.toNat ≠ i.toNat := fun e => hne ⟨rfl, BitVec.eq_of_toNat_eq e⟩
    obtain ⟨a, ha, -, -⟩ := Memory.write_eq_ok.1 hw
    rw [Memory.read_of_array? (Memory.write_array?_same ha hw), Memory.read_of_array? ha,
      WordArray.set_len, WordArray.get_set, if_neg hj]
  · exact Memory.read_congr (Memory.write_array?_ne hg hw)

/-! ### Release -/

/-- The slot of the released handle holds nothing (20_memory.md R42). -/
theorem Memory.release_array?_same (hr : m.release h = .ok m') : m'.array? h = none := by
  obtain ⟨-, hl, rfl⟩ := Memory.release_eq_ok.1 hr
  obtain ⟨a, ha⟩ := Memory.live_eq_true.1 hl
  rw [Memory.array?_set, if_pos ⟨rfl, Memory.lt_count_of_array? ha⟩]
  rfl

theorem Memory.release_array?_ne (hg : g ≠ h) (hr : m.release h = .ok m') :
    m'.array? g = m.array? g := by
  obtain ⟨-, -, rfl⟩ := Memory.release_eq_ok.1 hr
  rw [Memory.array?_set, if_neg fun e => hg e.1]

/-! ### Allocation -/

/-- An allocation with a handle on the free list takes the top one (20_memory.md R39). -/
theorem Memory.allocate_of_free_cons {p : Params} {size : Word} {rest : List Word}
    (hadm : allocAdmits p m size = true) (hfr : m.free = h :: rest) :
    m.allocate p size =
      .ok (h, { slots := m.slots.set h.toNat (.live (WordArray.zeros size.toNat)), free := rest }) :=
  Memory.allocate_eq_ok.2 ⟨hadm, .inl ⟨rest, hfr, rfl⟩⟩

/-- A new array reads 0 at every index inside it (20_memory.md R40 item 5). -/
theorem Memory.read_of_zeros {n : Nat} (ha : m.array? h = some (WordArray.zeros n)) :
    m.read h i = if i.toNat < n then .ok 0#32 else .error .indexError :=
  Memory.read_of_array? ha

/-- Where a handle must be minted, one is left: `N` itself is a 32-bit number (10_state.md R19). -/
theorem Memory.count_lt_of_admits {p : Params} {size : Word} (hp : p.wf) (hf : m.fits p)
    (hadm : allocAdmits p m size = true) (hfr : m.free = []) : m.count < 4294967296 := by
  have hne := (allocAdmits_eq_true.1 hadm).2.1 hfr
  have hle := hf.1
  have hcap := hp.2.1
  omega

/-- A handle on the free list is not 0, is dead, and names a slot of the table (10_state.md R20). -/
theorem Memory.dead_of_mem_free (hm : m.wf) (hh : h ∈ m.free) :
    h ≠ 0#32 ∧ m.array? h = none ∧ h.toNat < m.count := by
  obtain ⟨-, -, hlist, -⟩ := hm
  obtain ⟨h0, hslot⟩ := Memory.freeListed_iff.1 hlist h hh
  exact ⟨h0, by simp [Memory.array?, hslot, Slot.array?], (List.getElem?_eq_some_iff.1 hslot).1⟩

/-- The handle `N` is not 0 and is dead (10_state.md R19, R20 item 1). -/
theorem Memory.dead_of_eq_count (hm : m.wf) (hc : h.toNat = m.count) :
    h ≠ 0#32 ∧ m.array? h = none := by
  constructor
  · rintro rfl
    obtain ⟨a, ha⟩ := Memory.live_eq_true.1 hm.1
    exact absurd hc (Nat.ne_of_lt (Memory.lt_count_of_array? ha))
  · cases ha : m.array? h with
    | none => rfl
    | some a => exact absurd hc (Nat.ne_of_lt (Memory.lt_count_of_array? ha))

/-- An allocated handle is not 0, was dead, and now names an array of zeros; no other handle's array
has changed (20_memory.md R40). -/
theorem Memory.allocate_fresh {p : Params} {size : Word} (hp : p.wf) (hm : m.wf) (hf : m.fits p)
    (ha : m.allocate p size = .ok (h, m')) :
    h ≠ 0#32 ∧ m.array? h = none ∧ m'.array? h = some (WordArray.zeros size.toNat) ∧
    ∀ g : Word, g ≠ h → m'.array? g = m.array? g := by
  obtain ⟨hadm, ⟨rest, hfr, rfl⟩ | ⟨hfr, rfl, rfl⟩⟩ := Memory.allocate_eq_ok.1 ha
  · obtain ⟨h0, hdead, hlt⟩ := Memory.dead_of_mem_free hm (by simp [hfr] : h ∈ m.free)
    refine ⟨h0, hdead, ?_, fun g hg => ?_⟩
    · rw [Memory.array?_set, if_pos ⟨rfl, hlt⟩]
      rfl
    · rw [Memory.array?_set, if_neg fun e => hg e.1]
  · have hlt := Memory.count_lt_of_admits hp hf hadm hfr
    have hcount : (BitVec.ofNat 32 m.count).toNat = m.count := Nat.mod_eq_of_lt hlt
    obtain ⟨h0, hdead⟩ := Memory.dead_of_eq_count hm hcount
    refine ⟨h0, hdead, ?_, fun g hg => ?_⟩
    · rw [Memory.array?_append hlt, if_pos rfl]
    · rw [Memory.array?_append hlt, if_neg hg]

/-! ### Program swap -/

/-- Array 0 is the only one a swap changes (20_memory.md R43). -/
theorem Memory.replaceProgram_array?_ne (hg : g ≠ 0#32) (hr : m.replaceProgram h = .ok m') :
    m'.array? g = m.array? g := by
  obtain ⟨-, rfl⟩ | ⟨-, a, -, rfl⟩ := Memory.replaceProgram_eq_ok.1 hr
  · rfl
  · exact Memory.array?_setArray_ne hg

/-- Array 0 becomes the source array, itself where the handle is 0. -/
theorem Memory.replaceProgram_array?_zero (ha : m.array? h = some a)
    (hr : m.replaceProgram h = .ok m') : m'.array? 0#32 = some a := by
  obtain ⟨rfl, rfl⟩ | ⟨-, b, hb, rfl⟩ := Memory.replaceProgram_eq_ok.1 hr
  · exact ha
  · cases ha.symm.trans hb
    exact Memory.array?_setArray_same (Nat.zero_lt_of_lt (Memory.lt_count_of_array? ha))

theorem Memory.replaceProgram_free (hr : m.replaceProgram h = .ok m') : m'.free = m.free := by
  obtain ⟨-, rfl⟩ | ⟨-, a, -, rfl⟩ := Memory.replaceProgram_eq_ok.1 hr <;> rfl

/-! ### The statements about the bank -/

/-- Settles O37: the handle is looked up before the index is compared. -/
theorem translateChecksHandleThenIndex : Obligations.TranslateChecksHandleThenIndex := by
  unfold Obligations.TranslateChecksHandleThenIndex
  intro m h i
  refine ⟨fun hd => Memory.translate_of_dead (Memory.live_eq_false.1 hd), fun x hx => ⟨?_, ?_⟩⟩
  · exact Memory.translate_of_len_le hx
  · exact fun hi => ⟨Memory.translate_eq_ok.2 ⟨hx, hi⟩, Memory.read_eq_ok.2 ⟨x, hx, hi, rfl⟩⟩

/-- Settles O38: the frame of a write, array by array and then word by word in the one written to. -/
theorem writeChangesOneCell : Obligations.WriteChangesOneCell := by
  unfold Obligations.WriteChangesOneCell
  refine fun m h i v => ⟨fun k => Memory.write_eq_error, fun x ht => ?_⟩
  obtain ⟨hx, hi⟩ := Memory.translate_eq_ok.1 ht
  have hw := Memory.write_of_lt (v := v) hx hi
  exact ⟨_, _, hw, Memory.read_write_same hw, Memory.write_array?_same hx hw, WordArray.set_len x _ v,
    fun g j hne => Memory.read_write_ne hne hw, fun g hg => Memory.write_array?_ne hg hw,
    Memory.write_free hw, Memory.write_count hw⟩

/-- Settles O39: of a live handle other than 0, the one slot is set and the handle is pushed. -/
theorem releaseFreesOrRaises : Obligations.ReleaseFreesOrRaises := by
  unfold Obligations.ReleaseFreesOrRaises
  refine fun m h => ⟨fun hd => Memory.release_eq_error.2 ⟨rfl, hd⟩, fun h0 hl => ?_⟩
  obtain ⟨a, ha⟩ := Memory.live_eq_true.1 hl
  exact ⟨_, Memory.release_eq_ok.2 ⟨h0, hl, rfl⟩,
    List.getElem?_set_self (Memory.lt_count_of_array? ha), rfl,
    fun k hk => List.getElem?_set_ne hk.symm⟩

/-- Settles O40: the released handle has no array, and each operation looks the array up first. -/
theorem releasedHandleIsDead : Obligations.ReleasedHandleIsDead := by
  unfold Obligations.ReleasedHandleIsDead
  intro m m' h hr
  have hdead := Memory.release_array?_same hr
  have h0 : h ≠ 0#32 := (Memory.release_eq_ok.1 hr).1
  exact ⟨fun i v => ⟨Memory.read_of_dead hdead,
      Memory.write_eq_error.2 (Memory.translate_of_dead hdead)⟩,
    Memory.release_eq_error.2 ⟨rfl, .inr (Memory.live_eq_false.2 hdead)⟩,
    Memory.replaceProgram_eq_error.2 ⟨rfl, h0, hdead⟩,
    fun g hg => Memory.release_array?_ne hg hr, Memory.release_count hr⟩

/-- Settles O41: the free list is a stack, its top the handle just released. -/
theorem allocationReusesTheLastRelease : Obligations.AllocationReusesTheLastRelease := by
  unfold Obligations.AllocationReusesTheLastRelease
  intro p m m' h size hr hadm
  have hcount := Memory.release_count hr
  obtain ⟨-, hl, hm'⟩ := Memory.release_eq_ok.1 hr
  obtain ⟨a, ha⟩ := Memory.live_eq_true.1 hl
  have hlt : h.toNat < m'.count := hcount ▸ Memory.lt_count_of_array? ha
  have hal := Memory.allocate_of_free_cons hadm (congrArg Memory.free hm')
  refine ⟨_, hal, fun i => Memory.read_of_zeros ?_, rfl, ?_⟩
  · rw [Memory.array?_set, if_pos ⟨rfl, hlt⟩]
    rfl
  · exact (List.length_set ..).trans hcount

/-- Settles O42: a reused handle was on the free list, and a minted one is `N`. -/
theorem allocatedHandleIsFresh : Obligations.AllocatedHandleIsFresh := by
  unfold Obligations.AllocatedHandleIsFresh
  intro p m m' h size hp hm hf ha
  obtain ⟨h0, hdead, hnew, hother⟩ := Memory.allocate_fresh hp hm hf ha
  exact ⟨h0, Memory.live_eq_false.2 hdead, hnew, hother⟩

/-- Settles O43: after the swap the two handles have equal arrays, and a write changes the array of
one handle only. -/
theorem programSwapIsACopy : Obligations.ProgramSwapIsACopy := by
  unfold Obligations.ProgramSwapIsACopy
  intro m m' h x h0 hx hr
  have hzero : m'.array? 0#32 = some x := Memory.replaceProgram_array?_zero hx hr
  have hsource : m'.array? h = some x := (Memory.replaceProgram_array?_ne h0 hr).trans hx
  exact ⟨hzero, hsource, Memory.replaceProgram_free hr, Memory.replaceProgram_count hr,
    fun i v m'' hw => (Memory.write_array?_ne h0 hw).trans hsource,
    fun i v m'' hw => (Memory.write_array?_ne h0.symm hw).trans hzero⟩

end Sys2Proof.Machine
end

section
/-! 20_memory.md R32, R52: what a step leaves of a word that could be read, and a store over the next
instruction. -/

namespace Sys2Proof.Machine

variable {s t : State} {i : Instr} {h j v : Word}

/-- `AMEND` with a write that succeeds (42_array_access.md R101). -/
theorem exec_amend_of_write {a b c : Reg} {m : Memory}
    (hw : s.mem.write (s.reg a) (s.reg b) (s.reg c) = .ok m) :
    exec (.amend a b c) s = .next (s.setMem m) :=
  execAmend_eq_next.2 (.inr ⟨m, hw, rfl⟩)

/-- Settles O20: the fetch is a read of the bank the store has just left (20_memory.md R38). -/
theorem storedInstructionIsFetched : Obligations.StoredInstructionIsFetched := by
  unfold Obligations.StoredInstructionIsFetched
  intro a b c s x ha hb hx hpc
  have hw := Memory.write_of_lt (v := s.reg c) hx hpc
  exact ⟨s.setMem _, exec_amend_of_write (by rw [ha, hb]; exact hw), Memory.read_write_same hw⟩

/-- The ways an instruction can leave the address `(h, j)`, which could be read, with another answer:
a store at it, the release of its array, a swap over its array. -/
def State.ChangesWord (s : State) (i : Instr) (t : State) (h j : Word) : Prop :=
  (∃ a b c, i = .amend a b c ∧ s.reg a = h ∧ s.reg b = j ∧ t.mem.read h j = .ok (s.reg c)) ∨
  (∃ c, i = .abandon c ∧ s.reg c = h ∧ t.mem.live h = false) ∨
  (∃ b c, i = .loadprog b c ∧ h = 0#32 ∧ s.reg b ≠ 0#32)

/-- An instruction keeps a word that could be read, but in the ways named. -/
theorem Effect.read_eq_or_changes (he : Effect s i t) (hb : s.BankOk)
    (hr : s.mem.read h j = .ok v) : t.mem.read h j = s.mem.read h j ∨ s.ChangesWord i t h j := by
  cases he with
  | @stores a b c m hw =>
    by_cases hat : h = s.reg a ∧ j = s.reg b
    · obtain ⟨rfl, rfl⟩ := hat
      exact .inr (.inl ⟨a, b, c, rfl, rfl, rfl, Memory.read_write_same hw⟩)
    · exact .inl (Memory.read_write_ne hat hw)
  | @allocates b c g m hal =>
    obtain ⟨hp, hm, hf⟩ := hb
    obtain ⟨-, hdead, -, hother⟩ := Memory.allocate_fresh hp hm hf hal
    have hne : h ≠ g := by
      rintro rfl
      cases hr.symm.trans (Memory.read_of_dead hdead)
    exact .inl (Memory.read_congr (hother h hne))
  | @releases c m hre =>
    by_cases hh : h = s.reg c
    · subst hh
      exact .inr (.inr (.inl ⟨c, rfl, rfl,
        Memory.live_eq_false.2 (Memory.release_array?_same hre)⟩))
    · exact .inl (Memory.read_congr (Memory.release_array?_ne hh hre))
  | @swaps b c m hsw =>
    by_cases hh : h = 0#32
    · obtain ⟨-, rfl⟩ | ⟨h0, -⟩ := Memory.replaceProgram_eq_ok.1 hsw
      · exact .inl rfl
      · exact .inr (.inr (.inr ⟨b, c, rfl, hh, h0⟩))
    · exact .inl (Memory.read_congr (Memory.replaceProgram_array?_ne hh hsw))
  | receives c => exact .inl (by rw [State.receive_mem])
  | _ => exact .inl rfl

/-- A step keeps a word that could be read, but in the ways named, by the instruction it fetches. -/
theorem StepEffect.read_eq_or_changes (he : StepEffect s t) (hb : s.BankOk)
    (hr : s.mem.read h j = .ok v) :
    t.mem.read h j = s.mem.read h j ∨
      ∃ w i, s.fetch = .ok w ∧ decode w = .ok i ∧ s.advance.ChangesWord i t h j := by
  cases he with
  | resumes c => exact .inl (by rw [State.receive_mem])
  | fetchFails => exact .inl rfl
  | decodeFails => exact .inl rfl
  | @executes w i _ _ hf hd hx =>
    obtain hsame | hch := hx.read_eq_or_changes hb hr
    · exact .inl hsame
    · exact .inr ⟨w, i, hf, hd, hch⟩

/-- Settles O54: the step's inversion, and for each effect the frame of the bank's operation. -/
theorem wordsChangeOnlyByTheirInstructions : Obligations.WordsChangeOnlyByTheirInstructions := by
  unfold Obligations.WordsChangeOnlyByTheirInstructions
  intro s t h j v hs hstep hr hne
  obtain ⟨hb, -⟩ := State.inv_iff.1 hs
  obtain hsame | ⟨w, i, hf, hd, hch⟩ := (step_effect hstep).2.read_eq_or_changes hb hr
  · exact absurd (hsame.trans hr) hne
  · refine ⟨w, hf, ?_⟩
    obtain ⟨a, b, c, rfl, hat⟩ | ⟨c, rfl, hat⟩ | ⟨b, c, rfl, hat⟩ := hch
    · exact .inl ⟨a, b, c, hd, hat⟩
    · exact .inr (.inl ⟨c, hd, hat⟩)
    · exact .inr (.inr ⟨b, c, hd, hat⟩)

end Sys2Proof.Machine
end

section
/-! 30_encoding.md R61 to R70: what the decoder answers, said once by the fields of the word, and the
fields of the words the two formats and the encoder build. -/

namespace Sys2Proof.Machine

variable {w : Word} {i : Instr}

/-! ### The fields of a word as numbers (R61, R62) -/

theorem opField_toNat (w : Word) : (opField w).toNat = w.toNat / 0x10000000 := by
  rw [opField, BitVec.extractLsb'_toNat, Nat.shiftRight_eq_div_pow]
  exact Nat.mod_eq_of_lt (by omega)

theorem aField_val (w : Word) : (aField w).val = w.toNat / 64 % 8 := by
  simp [aField, Nat.shiftRight_eq_div_pow]

theorem bField_val (w : Word) : (bField w).val = w.toNat / 8 % 8 := by
  simp [bField, Nat.shiftRight_eq_div_pow]

theorem cField_val (w : Word) : (cField w).val = w.toNat % 8 := by
  simp [cField]

theorem sField_val (w : Word) : (sField w).val = w.toNat / 0x2000000 % 8 := by
  simp [sField, Nat.shiftRight_eq_div_pow]

theorem immField_eq (w : Word) : immField w = w.toNat % 0x2000000 := by
  simp [immField]

/-! ### What the decoder answers (R63, R64, R66) -/

/-- The operands of `i` are the fields of `w` that R64 marks as used. -/
def OperandsIn (w : Word) : Instr → Prop
  | .cmov a b c | .aidx a b c | .amend a b c | .add a b c | .mul a b c | .div a b c
  | .nand a b c => aField w = a ∧ bField w = b ∧ cField w = c
  | .halt => True
  | .alloc b c | .loadprog b c => bField w = b ∧ cField w = c
  | .abandon c | .out c | .inp c => cField w = c
  | .orth s imm => sField w = s ∧ immField w = imm

/-- The decoder reads the operation code, and then the operands from the fields. -/
theorem decode_eq_ok : decode w = .ok i ↔ opField w = i.opcode ∧ OperandsIn w i := by
  constructor
  · unfold decode
    split
    case h_15 => exact fun h => nomatch h
    all_goals
      rintro ⟨⟩
      exact ⟨BitVec.eq_of_toNat_eq ‹_›, by simp [OperandsIn]⟩
  · rintro ⟨hop, hi⟩
    cases i with
    | halt => simp [decode, hop, Instr.opcode]
    | _ =>
      simp only [OperandsIn] at hi
      simp [decode, hop, hi, Instr.opcode]

/-- The decoder rejects the operation codes 14 and 15 only. -/
theorem decode_eq_error {e : DecodeError} :
    decode w = .error e ↔ 14 ≤ (opField w).toNat ∧ e = .invalidOpcode (opField w) := by
  unfold decode
  split
  case h_15 =>
    simp only [imp_false] at *
    have hop : 14 ≤ (opField w).toNat := by omega
    simp [hop, eq_comm]
  all_goals simp [*]

theorem exists_decode_eq_error : (∃ e, decode w = .error e) ↔ 14 ≤ (opField w).toNat := by
  simp only [decode_eq_error, exists_and_left, exists_eq, and_true]

/-- Operands taken from the fields of a word fit: the immediate is the one that could not, and its
field has 25 bits (R68). -/
theorem wellFormed_of_operandsIn (h : OperandsIn w i) : i.wellFormed = true := by
  cases i with
  | orth s imm =>
    obtain ⟨-, rfl⟩ := h
    have := immField_eq w
    exact decide_eq_true (by omega)
  | _ => rfl

/-! ### The words of the two formats (R61, R62) -/

/-- The operation code stands in bits 31:28, above the ignored bits. -/
theorem opField_standardWord (op : Nat) {x : Nat} (a b c : Reg) (hx : x < 524288) :
    opField (standardWord op x a b c) = BitVec.ofNat 4 op := by
  apply BitVec.eq_of_toNat_eq
  rw [opField_toNat, standardWord, BitVec.toNat_ofNat, BitVec.toNat_ofNat]
  omega

@[simp] theorem aField_standardWord (op x : Nat) (a b c : Reg) :
    aField (standardWord op x a b c) = a := by
  apply Fin.ext
  rw [aField_val, standardWord, BitVec.toNat_ofNat]
  omega

@[simp] theorem bField_standardWord (op x : Nat) (a b c : Reg) :
    bField (standardWord op x a b c) = b := by
  apply Fin.ext
  rw [bField_val, standardWord, BitVec.toNat_ofNat]
  omega

@[simp] theorem cField_standardWord (op x : Nat) (a b c : Reg) :
    cField (standardWord op x a b c) = c := by
  apply Fin.ext
  rw [cField_val, standardWord, BitVec.toNat_ofNat]
  omega

theorem sField_immediateWord (d : Reg) {imm : Nat} (h : imm < 0x2000000) :
    sField (immediateWord d imm) = d := by
  apply Fin.ext
  rw [sField_val, immediateWord, BitVec.toNat_ofNat]
  omega

theorem immField_immediateWord (d : Reg) {imm : Nat} (h : imm < 0x2000000) :
    immField (immediateWord d imm) = imm := by
  rw [immField_eq, immediateWord, BitVec.toNat_ofNat]
  omega

/-! ### The canonical encoder (R70) -/

theorem toNat_ofNat_reg (r : Reg) : (BitVec.ofNat 32 r.val).toNat = r.val := by
  rw [BitVec.toNat_ofNat]
  omega

/-- A register number shifted to the place of a selector stays inside the word. -/
theorem toNat_reg_shiftLeft (r : Reg) {k : Nat} (hk : k ≤ 29) :
    (BitVec.ofNat 32 r.val <<< k).toNat = r.val * 2 ^ k := by
  have hpow : 2 ^ k ≤ 2 ^ 29 := Nat.pow_le_pow_right (by decide) hk
  have hmul : r.val * 2 ^ k ≤ 7 * 2 ^ 29 := Nat.mul_le_mul (by omega) hpow
  rw [BitVec.toNat_shiftLeft, toNat_ofNat_reg, Nat.shiftLeft_eq]
  omega

/-- The disjunction of a multiple of `2 ^ k` with a number below `2 ^ k` is their sum. -/
theorem mul_two_pow_or {k n : Nat} (m : Nat) (hn : n < 2 ^ k) : m * 2 ^ k ||| n = m * 2 ^ k + n := by
  rw [← Nat.shiftLeft_eq, Nat.shiftLeft_add_eq_or_of_lt hn]

/-- The encoder's word is that of the standard format with bits 27:9 at 0: its shifted fields do not
overlap, so their disjunction is their sum. -/
theorem encodeStd_eq_standardWord (op : Nat) (a b c : Reg) :
    encodeStd op a b c = standardWord op 0 a b c := by
  have hop : (BitVec.ofNat 32 op <<< 28).toNat = op % 16 * 2 ^ 28 := by
    rw [BitVec.toNat_shiftLeft, BitVec.toNat_ofNat, Nat.shiftLeft_eq]
    omega
  apply BitVec.eq_of_toNat_eq
  calc (encodeStd op a b c).toNat
      = op % 16 * 2 ^ 28 ||| (a.val * 2 ^ 6 ||| (b.val * 2 ^ 3 ||| c.val)) := by
        rw [encodeStd, BitVec.or_assoc, BitVec.or_assoc, BitVec.toNat_or, BitVec.toNat_or,
          BitVec.toNat_or, hop, toNat_reg_shiftLeft a (by decide), toNat_reg_shiftLeft b (by decide),
          toNat_ofNat_reg]
    _ = op % 16 * 2 ^ 28 + (a.val * 2 ^ 6 + (b.val * 2 ^ 3 + c.val)) := by
        rw [mul_two_pow_or b.val (by omega), mul_two_pow_or a.val (by omega),
          mul_two_pow_or (op % 16) (by omega)]
    _ = (standardWord op 0 a b c).toNat := by
        rw [standardWord, BitVec.toNat_ofNat]
        omega

/-- The encoder's word is that of the immediate format, for the same reason. -/
theorem encodeImm_eq_immediateWord (s : Reg) (imm : BitVec 25) :
    encodeImm s imm = immediateWord s imm.toNat := by
  apply BitVec.eq_of_toNat_eq
  calc (encodeImm s imm).toNat
      = 13 * 2 ^ 28 ||| (s.val * 2 ^ 25 ||| imm.toNat) := by
        rw [encodeImm, BitVec.or_assoc, BitVec.toNat_or, BitVec.toNat_or,
          toNat_reg_shiftLeft s (by decide), BitVec.toNat_setWidth_of_le (by decide)]
        rfl
    _ = 13 * 2 ^ 28 + (s.val * 2 ^ 25 + imm.toNat) := by
        rw [mul_two_pow_or s.val (by omega), mul_two_pow_or 13 (by omega)]
    _ = (immediateWord s imm.toNat).toNat := by
        rw [immediateWord, BitVec.toNat_ofNat]
        omega

/-- Every encoded word carries the instruction's operation code. -/
theorem opField_encode (i : Instr) : opField (encode i) = i.opcode := by
  cases i with
  | cmov a b c => exact Laws.OpcodeField.cmov a b c
  | aidx a b c => exact Laws.OpcodeField.aidx a b c
  | amend a b c => exact Laws.OpcodeField.amend a b c
  | add a b c => exact Laws.OpcodeField.add a b c
  | mul a b c => exact Laws.OpcodeField.mul a b c
  | div a b c => exact Laws.OpcodeField.div a b c
  | nand a b c => exact Laws.OpcodeField.nand a b c
  | halt => exact Laws.OpcodeField.halt
  | alloc b c => exact Laws.OpcodeField.alloc b c
  | abandon c => exact Laws.OpcodeField.abandon c
  | out c => exact Laws.OpcodeField.out c
  | inp c => exact Laws.OpcodeField.inp c
  | loadprog b c => exact Laws.OpcodeField.loadprog b c
  | orth s imm => exact Laws.OpcodeField.orth s imm

/-- Every encoded word of a well-formed instruction carries the operands in their fields; the
immediate is the one operand the encoder could truncate. -/
theorem operandsIn_encode (h : i.wellFormed = true) : OperandsIn (encode i) i := by
  cases i with
  | orth s imm =>
    have hle : imm ≤ 33554431 := of_decide_eq_true h
    have himm : imm < 0x2000000 := by omega
    rw [encode, encodeImm_eq_immediateWord, BitVec.toNat_ofNat, Nat.mod_eq_of_lt himm]
    exact ⟨sField_immediateWord s himm, immField_immediateWord s himm⟩
  | _ => simp [encode, encodeStd_eq_standardWord, OperandsIn]

/-! ### The statements about the encoding -/

/-- Settles O1: the encoded word carries the operation code and the operands the decoder reads. -/
theorem decodeOfEncodeGivesTheInstruction : Obligations.DecodeOfEncodeGivesTheInstruction := by
  unfold Obligations.DecodeOfEncodeGivesTheInstruction
  exact fun i hi => decode_eq_ok.2 ⟨opField_encode i, operandsIn_encode hi⟩

/-- Settles O2: each operation code, with the selectors its instruction reads. -/
theorem standardFormatFieldPositions : Obligations.StandardFormatFieldPositions := by
  unfold Obligations.StandardFormatFieldPositions
  intro x a b c hx
  have hop := fun op => opField_standardWord op a b c hx
  have ha := fun op => aField_standardWord op x a b c
  have hb := fun op => bField_standardWord op x a b c
  have hc := fun op => cField_standardWord op x a b c
  exact ⟨decode_eq_ok.2 ⟨hop 0, ha 0, hb 0, hc 0⟩, decode_eq_ok.2 ⟨hop 1, ha 1, hb 1, hc 1⟩,
    decode_eq_ok.2 ⟨hop 2, ha 2, hb 2, hc 2⟩, decode_eq_ok.2 ⟨hop 3, ha 3, hb 3, hc 3⟩,
    decode_eq_ok.2 ⟨hop 4, ha 4, hb 4, hc 4⟩, decode_eq_ok.2 ⟨hop 5, ha 5, hb 5, hc 5⟩,
    decode_eq_ok.2 ⟨hop 6, ha 6, hb 6, hc 6⟩, decode_eq_ok.2 ⟨hop 7, trivial⟩,
    decode_eq_ok.2 ⟨hop 8, hb 8, hc 8⟩, decode_eq_ok.2 ⟨hop 9, hc 9⟩,
    decode_eq_ok.2 ⟨hop 10, hc 10⟩, decode_eq_ok.2 ⟨hop 11, hc 11⟩,
    decode_eq_ok.2 ⟨hop 12, hb 12, hc 12⟩⟩

/-- Settles O3: the operation code is the word's top four bits. -/
theorem invalidWordsAreTheTwoTopOpcodes : Obligations.InvalidWordsAreTheTwoTopOpcodes := by
  unfold Obligations.InvalidWordsAreTheTwoTopOpcodes
  intro w
  rw [exists_decode_eq_error, opField_toNat]
  omega

/-- Settles O4: the operands are fields of the word, so the immediate has 25 bits. -/
theorem decodedInstructionsAreWellFormed : Obligations.DecodedInstructionsAreWellFormed := by
  unfold Obligations.DecodedInstructionsAreWellFormed
  intro w i h
  obtain ⟨hop, hi⟩ := decode_eq_ok.1 h
  exact ⟨wellFormed_of_operandsIn hi, hop⟩

/-- Settles O5: the decoder evaluated on each word. -/
theorem sampleWordsDecode : Obligations.SampleWordsDecode :=
  ⟨rfl, rfl, rfl, rfl, rfl, rfl, rfl, rfl⟩

end Sys2Proof.Machine
end

section
/-! 40_step.md R80 to R86, 46_control.md R140: which step a core takes, where it leaves the finger,
and how a run ends. -/

namespace Sys2Proof.Machine

variable {s t : State} {i : Instr} {w : Word} {k : FaultKind} {a : WordArray}

/-! ### What a running core that does not wait does -/

theorem step_of_fetch_error (hrun : s.status = .running) (hw : s.waiting = none)
    (hf : s.fetch = .error k) : step s = .next (s.raise k) :=
  step_eq_next.2 ⟨hrun, .inl ⟨hw, State.cycle_eq_next.2 (.inl ⟨k, hf, rfl⟩)⟩⟩

/-- A fetched word that decodes is executed with the finger advanced (40_step.md R83). -/
theorem step_of_decode (hrun : s.status = .running) (hw : s.waiting = none) (hf : s.fetch = .ok w)
    (hd : decode w = .ok i) : step s = exec i s.advance := by
  simp [step, State.proceed, State.cycle, State.runWord, hrun, hw, hf, hd]

/-- Settles O6: the fetch is the read at `(0, pc)`. -/
theorem stepRunsTheDecodedInstruction : Obligations.StepRunsTheDecodedInstruction := by
  unfold Obligations.StepRunsTheDecodedInstruction
  exact fun s w i hrun hw hf hd _ => step_of_decode hrun hw hf hd

/-! ### Every instruction has a next state -/

theorem State.attempt_next {α : Type} (s : State) (r : Except FaultKind α) (f : α → State) :
    ∃ t, s.attempt r f = .next t := by
  cases r with
  | error k => exact ⟨s.raise k, rfl⟩
  | ok x => exact ⟨f x, rfl⟩

theorem ite_next {c : Bool} (x y : State) :
    ∃ t, (if c then .next x else .next y : Answer) = .next t := by
  cases c with
  | false => exact ⟨y, rfl⟩
  | true => exact ⟨x, rfl⟩

/-- No instruction is refused: each tests a condition, tries an operation that may raise, or simply
goes on. -/
theorem exec_next (i : Instr) (s : State) : ∃ t, exec i s = .next t := by
  cases i with
  | cmov | div | out => exact ite_next _ _
  | aidx | amend | alloc | abandon | loadprog => exact State.attempt_next _ _ _
  | add | mul | nand | halt | inp | orth => exact ⟨_, rfl⟩

theorem State.cycle_next (s : State) : ∃ t, s.cycle = .next t := by
  cases hf : s.fetch with
  | error k => exact ⟨_, State.cycle_eq_next.2 (.inl ⟨k, hf, rfl⟩)⟩
  | ok w =>
    cases hd : decode w with
    | error e => exact ⟨_, State.cycle_eq_next.2 (.inr (.inl ⟨w, e, hf, hd, rfl⟩))⟩
    | ok i =>
      obtain ⟨t, ht⟩ := exec_next i s.advance
      exact ⟨t, State.cycle_eq_next.2 (.inr (.inr ⟨w, i, hf, hd, ht⟩))⟩

/-- Settles O7: a running core completes its `IN`, or its cycle has a next state. -/
theorem coreStepsExactlyWhileRunning : Obligations.CoreStepsExactlyWhileRunning := by
  unfold Obligations.CoreStepsExactlyWhileRunning
  refine fun s => ⟨fun ⟨t, h⟩ => (step_eq_next.1 h).1, fun hrun => ?_⟩
  cases hw : s.waiting with
  | none =>
    obtain ⟨t, ht⟩ := s.cycle_next
    exact ⟨t, step_eq_next.2 ⟨hrun, .inl ⟨hw, ht⟩⟩⟩
  | some c => exact ⟨s.receive c, step_eq_next.2 ⟨hrun, .inr ⟨c, hw, rfl⟩⟩⟩

/-! ### A fetch past the end of array 0 -/

/-- The fault entry writes the status and nothing else (60_exceptions.md R156). -/
theorem State.raise_entersFault (s : State) (k : FaultKind) : s.EntersFault (s.raise k) k :=
  ⟨rfl, rfl, fun _ => rfl, ⟨fun _ _ => rfl, rfl⟩, rfl, rfl, rfl, rfl, rfl⟩

/-- The fetch is translated as any read is, so it raises `IndexError` there (20_memory.md R38). -/
theorem State.fetch_of_len_le (ha : s.mem.array? 0#32 = some a) (hl : a.len ≤ s.pc.toNat) :
    s.fetch = .error .indexError :=
  Memory.read_eq_error.2 (Memory.translate_of_len_le ha hl)

/-- Settles O8: the fetch fails before the advance. -/
theorem fetchPastTheEndFaults : Obligations.FetchPastTheEndFaults := by
  unfold Obligations.FetchPastTheEndFaults
  exact fun s a hrun hw ha hl =>
    ⟨_, step_of_fetch_error hrun hw (State.fetch_of_len_le ha hl), s.raise_entersFault _⟩

/-- Array 0 is live, and no array is longer than `2^32 - 1` words (00_scope.md R6). -/
theorem State.BankOk.program (hb : s.BankOk) :
    ∃ a, s.mem.array? 0#32 = some a ∧ a.len ≤ 0xFFFFFFFF := by
  obtain ⟨⟨-, -, hmax⟩, ⟨hlive, -⟩, -, hlen⟩ := hb
  obtain ⟨a, ha⟩ := Memory.live_eq_true.1 hlive
  exact ⟨a, ha, (hlen a (Memory.mem_arrays_of_array? ha)).trans hmax⟩

/-- Settles O55: the offset `2^32 - 1` lies at or past the end of every array. -/
theorem lastOffsetIsNeverFetched : Obligations.LastOffsetIsNeverFetched := by
  unfold Obligations.LastOffsetIsNeverFetched
  intro s hs hrun hw hpc
  obtain ⟨a, ha, hlen⟩ := (State.inv_iff.1 hs).1.program
  exact fetchPastTheEndFaults s a hrun hw ha (by simpa [hpc] using hlen)

/-! ### The finger after a step -/

/-- Only a `LOADPROG` that does not fault moves the finger of the execute phase, to `x[C]`. -/
theorem Effect.finger (h : Effect s i t) :
    (t.pc = s.pc ∧ ∀ b c, i = .loadprog b c → t.status ≠ .running) ∨
    ∃ b c, i = .loadprog b c ∧ t.pc = s.reg c ∧ t.status = s.status := by
  cases h with
  | @swaps b c => exact .inr ⟨b, c, rfl, rfl, rfl⟩
  | raises => exact .inl ⟨rfl, nofun⟩
  | writes v hr => exact .inl ⟨rfl, fun b c e => by simp [e, resultReg?] at hr⟩
  | receives c => exact .inl ⟨State.receive_pc s c, nofun⟩
  | _ => exact .inl ⟨rfl, nofun⟩

/-- The same for a step that fetches a word: elsewhere the finger is one past it (40_step.md R82). -/
theorem StepEffect.finger (h : StepEffect s t) (hw : s.waiting = none) (hf : s.fetch = .ok w) :
    (t.pc = s.pc + 1#32 ∧ ∀ b c, decode w = .ok (.loadprog b c) → t.status ≠ .running) ∨
    ∃ b c, decode w = .ok (.loadprog b c) ∧ t.pc = s.reg c ∧ t.status = s.status := by
  cases h with
  | resumes c hw' => cases hw.symm.trans hw'
  | fetchFails k _ hf' => cases hf.symm.trans hf'
  | decodeFails => exact .inl ⟨rfl, nofun⟩
  | executes _ hf' hd he =>
    cases hf.symm.trans hf'
    obtain ⟨hpc, hno⟩ | ⟨b, c, rfl, hpc, hst⟩ := he.finger
    · exact .inl ⟨hpc, fun b c e => hno b c (Except.ok.inj (hd.symm.trans e))⟩
    · exact .inr ⟨b, c, hd, hpc, hst⟩

/-- A step that resumes an `IN` leaves the finger (45_console.md R135). -/
theorem StepEffect.pc_of_waiting (h : StepEffect s t) (hw : s.waiting ≠ none) : t.pc = s.pc := by
  cases h with
  | resumes c => exact State.receive_pc s c
  | fetchFails _ hno => exact absurd hno hw
  | decodeFails hno => exact absurd hno hw
  | executes hno => exact absurd hno hw

/-- Settles O10: the finger is one past the word, or at `x[C]` after a `LOADPROG` that runs on. -/
theorem fingerAfterAFetchedWord : Obligations.FingerAfterAFetchedWord := by
  unfold Obligations.FingerAfterAFetchedWord
  intro s t h
  obtain ⟨hrun, he⟩ := step_effect h
  refine ⟨he.pc_of_waiting, fun w hw hf => ?_⟩
  obtain ⟨hpc, hno⟩ | ⟨b, c, hd, hpc, hst⟩ := he.finger hw hf
  · exact ⟨fun _ => hpc, fun b c hd hst => absurd hst (hno b c hd), fun _ => hpc⟩
  · refine ⟨fun hno => absurd hd (hno b c), fun b' c' hd' _ => ?_,
      fun hne => absurd (hst.trans hrun) hne⟩
    cases hd.symm.trans hd'
    exact hpc

/-! ### The ends of a run -/

/-- What an instruction makes of the status: it raises, it is a `HALT`, or it keeps it. -/
theorem Effect.status (h : Effect s i t) :
    (∃ k, t = s.raise k) ∨ (i = .halt ∧ t.status = .halted) ∨ t.status = s.status := by
  cases h with
  | raises k => exact .inl ⟨k, rfl⟩
  | halts => exact .inr (.inl ⟨rfl, rfl⟩)
  | receives c => exact .inr (.inr (State.receive_status s c))
  | _ => exact .inr (.inr rfl)

/-- The core stands at a word to fetch whose operation code is 7 (46_control.md R140). -/
def State.atHalt (s : State) : Prop :=
  s.waiting = none ∧ ∃ w, s.mem.read 0#32 s.pc = .ok w ∧ opField w = 7

/-- Every word with operation code 7 is a `HALT` (30_encoding.md R65). -/
theorem decode_eq_halt : decode w = .ok .halt ↔ opField w = 7 := by
  simp [decode_eq_ok, OperandsIn, Instr.opcode]

theorem step_of_atHalt (hrun : s.status = .running) (hh : s.atHalt) :
    step s = .next (s.advance.setStatus .halted) := by
  obtain ⟨hw, w, hf, hop⟩ := hh
  rw [step_of_decode hrun hw hf (decode_eq_halt.2 hop)]
  rfl

/-- A step of a running core goes on, halts at a `HALT`, or faults and records the finger. -/
theorem StepEffect.status (h : StepEffect s t) (hrun : s.status = .running) :
    t.status = .running ∨ (t.status = .halted ∧ s.atHalt) ∨ ∃ k, t.status = .faulted k t.pc := by
  cases h with
  | resumes c => exact .inl ((State.receive_status s c).trans hrun)
  | fetchFails k => exact .inr (.inr ⟨k, rfl⟩)
  | decodeFails => exact .inr (.inr ⟨_, rfl⟩)
  | executes hw hf hd he =>
    obtain ⟨k, rfl⟩ | ⟨rfl, hst⟩ | hst := he.status
    · exact .inr (.inr ⟨k, rfl⟩)
    · exact .inr (.inl ⟨hst, hw, _, hf, decode_eq_halt.1 hd⟩)
    · exact .inl (hst.trans hrun)

/-- Settles O12: the status after the step, and conversely the step at a `HALT`. -/
theorem onlyHaltAndFaultsEndARun : Obligations.OnlyHaltAndFaultsEndARun := by
  unfold Obligations.OnlyHaltAndFaultsEndARun
  intro s t h
  obtain ⟨hrun, he⟩ := step_effect h
  refine ⟨⟨fun hhalt => ?_, fun hh => ?_⟩, ?_⟩
  · obtain hst | ⟨-, hh⟩ | ⟨k, hst⟩ := he.status hrun
    · cases hst.symm.trans hhalt
    · exact hh
    · cases hst.symm.trans hhalt
  · cases (step_of_atHalt hrun hh).symm.trans h
    rfl
  · exact (he.status hrun).imp_right (Or.imp_left And.left)

end Sys2Proof.Machine
end

section
/-! 41_data_movement.md R90, R91 and 30_encoding.md R64: the two instructions that move data, and which
register an instruction can change at all. -/

namespace Sys2Proof.Machine

variable {s t : State} {i : Instr} {q : Reg}

/-! ### Which register an instruction writes (R64) -/

/-- The instruction has `x[q]` for its destination: of a result, of a new handle, or of an answer. -/
def HasDestination (i : Instr) (q : Reg) : Prop :=
  resultReg? i = some q ∨ (∃ c, i = .alloc q c) ∨ i = .inp q

/-- The instructions with a destination, by mnemonic. -/
theorem hasDestination_iff :
    HasDestination i q ↔
      (∃ b c, i = .cmov q b c ∨ i = .aidx q b c ∨ i = .add q b c ∨ i = .mul q b c ∨
        i = .div q b c ∨ i = .nand q b c ∨ i = .alloc q c) ∨
      i = .inp q ∨ ∃ n, i = .orth q n := by
  cases i <;> simp [HasDestination, resultReg?]

theorem State.reg_setReg_eq_or (s : State) (r q : Reg) (v : Word) :
    (s.setReg r v).reg q = s.reg q ∨ q = r :=
  (eq_or_ne q r).symm.imp_left (State.reg_setReg_ne s r q v)

/-- An `IN` into `x[c]`, whether it takes an answer or waits, writes no other register
(45_console.md R131, R135). -/
theorem State.reg_receive_eq_or (s : State) (c q : Reg) :
    (s.receive c).reg q = s.reg q ∨ q = c := by
  cases ha : s.nextAnswer with
  | none => exact .inl (by rw [State.receive_of_none s c ha, State.setWaiting_reg])
  | some a =>
    rw [State.receive_of_some s c a ha, State.setWaiting_reg]
    exact s.consumeAnswer.reg_setReg_eq_or c q _

theorem Effect.reg_eq_or_destination (h : Effect s i t) (q : Reg) :
    t.reg q = s.reg q ∨ HasDestination i q := by
  cases h with
  | @writes _ r v hr =>
    obtain heq | rfl := s.reg_setReg_eq_or r q v
    · exact .inl heq
    · exact .inr (.inl hr)
  | @allocates b c g m =>
    obtain heq | rfl := (s.setMem m).reg_setReg_eq_or b q g
    · exact .inl heq
    · exact .inr (.inr (.inl ⟨c, rfl⟩))
  | receives c =>
    obtain heq | rfl := s.reg_receive_eq_or c q
    · exact .inl heq
    · exact .inr (.inr (.inr rfl))
  | _ => exact .inl rfl

theorem StepEffect.reg_eq_or_destination (h : StepEffect s t) (q : Reg) :
    t.reg q = s.reg q ∨ s.waiting = some q ∨
      (s.waiting = none ∧ ∃ w i, s.fetch = .ok w ∧ decode w = .ok i ∧ HasDestination i q) := by
  cases h with
  | resumes c hw =>
    obtain heq | rfl := s.reg_receive_eq_or c q
    · exact .inl heq
    · exact .inr (.inl hw)
  | fetchFails => exact .inl rfl
  | decodeFails => exact .inl rfl
  | executes hw hf hd he =>
    exact (he.reg_eq_or_destination q).imp_right fun hq => .inr ⟨hw, _, _, hf, hd, hq⟩

/-- Settles O56: a step keeps a register that is not the destination of its instruction. -/
theorem registersChangeOnlyAsDestinations : Obligations.RegistersChangeOnlyAsDestinations := by
  unfold Obligations.RegistersChangeOnlyAsDestinations
  intro s t q h hne
  obtain heq | hwait | ⟨hw, w, i, hf, hd, hq⟩ := (step_effect h).2.reg_eq_or_destination q
  · exact absurd heq hne
  · exact .inl hwait
  · exact .inr ⟨hw, w, i, hf, hd, hasDestination_iff.1 hq⟩

/-! ### `CMOV` and `ORTH` -/

/-- A register write has the frame the statements ask of one. -/
theorem State.setReg_writesReg (s : State) (r : Reg) (v : Word) : s.WritesReg (s.setReg r v) r v :=
  ⟨State.reg_setReg_same s r v, fun q hq => State.reg_setReg_ne s r q v hq, rfl, rfl,
    ⟨fun _ _ => rfl, rfl⟩, rfl, rfl, rfl, rfl, rfl⟩

/-- Settles O14: the two cases of the condition. -/
theorem cmovMovesUnlessZero : Obligations.CmovMovesUnlessZero := by
  unfold Obligations.CmovMovesUnlessZero
  intro a b c s
  obtain ⟨hdecode, -⟩ := standardFormatFieldPositions 0 a b c (by decide)
  exact ⟨hdecode,
    fun hc => ⟨_, execCmov_eq_next.2 (.inl ⟨hc, rfl⟩), s.setReg_writesReg a (s.reg b)⟩,
    fun hc => execCmov_eq_next.2 (.inr ⟨hc, rfl⟩)⟩

/-- The operation code 13 stands above the register number and the immediate. -/
theorem opField_immediateWord (d : Reg) {imm : Nat} (h : imm < 0x2000000) :
    opField (immediateWord d imm) = 13 := by
  apply BitVec.eq_of_toNat_eq
  rw [opField_toNat, immediateWord, BitVec.toNat_ofNat]
  simp only [BitVec.toNat_ofNat, BitVec.ofNat_eq_ofNat]
  omega

theorem decode_immediateWord (d : Reg) {imm : Nat} (h : imm < 0x2000000) :
    decode (immediateWord d imm) = .ok (.orth d imm) :=
  decode_eq_ok.2
    ⟨opField_immediateWord d h, sField_immediateWord d h, immField_immediateWord d h⟩

/-- The top seven bits of the zero-extended immediate are 0, whatever its low 25 bits (R68). -/
theorem immValue_getLsbD (imm : Nat) {k : Nat} (hk : 25 ≤ k) : (immValue imm).getLsbD k = false := by
  rw [immValue, BitVec.getLsbD_setWidth, BitVec.getLsbD_of_ge _ k hk, Bool.and_false]

/-- An immediate that fits its field is not truncated. -/
theorem immValue_toNat {imm : Nat} (h : imm < 0x2000000) : (immValue imm).toNat = imm := by
  rw [immValue, BitVec.toNat_setWidth_of_le (by decide), BitVec.toNat_ofNat, Nat.mod_eq_of_lt h]

theorem immValue_eq_ofNat {imm : Nat} (h : imm < 0x2000000) : immValue imm = BitVec.ofNat 32 imm := by
  apply BitVec.eq_of_toNat_eq
  rw [immValue_toNat h, BitVec.toNat_ofNat]
  omega

/-- Settles O15: the fields of the word, and the write of the zero-extended immediate. -/
theorem orthLoadsTheImmediate : Obligations.OrthLoadsTheImmediate := by
  unfold Obligations.OrthLoadsTheImmediate
  refine ⟨fun d imm hle => decode_immediateWord d (by omega), fun d imm s hwf => ?_⟩
  have hle : imm ≤ 33554431 := of_decide_eq_true hwf
  have himm : imm < 0x2000000 := by omega
  refine ⟨_, execOrth_eq_next.2 rfl, ?_, ?_, fun k hk => ?_⟩
  · exact immValue_eq_ofNat himm ▸ s.setReg_writesReg d (immValue imm)
  · rw [State.reg_setReg_same, immValue_toNat himm]
  · rw [State.reg_setReg_same, immValue_getLsbD imm hk]

end Sys2Proof.Machine
end

section
/-! 42_array_access.md R100, R101: `AIDX` and `AMEND`, the word read or stored and the two faults. -/

namespace Sys2Proof.Machine

variable {s : State} {a b c : Reg} {k : FaultKind}

/-! ### The addressed word -/

/-- `AIDX` with a read that succeeds (R100). -/
theorem exec_aidx_of_read {v : Word} (hr : s.mem.read (s.reg b) (s.reg c) = .ok v) :
    exec (.aidx a b c) s = .next (s.setReg a v) :=
  execAidx_eq_next.2 (.inr ⟨v, hr, rfl⟩)

/-- A new Memory Bank has the frame the statements ask of a store. -/
theorem State.setMem_onlyMemoryChanges (s : State) (m : Memory) :
    s.OnlyMemoryChanges (s.setMem m) :=
  ⟨fun _ => rfl, rfl, rfl, rfl, rfl, rfl, rfl, rfl⟩

/-- Settles O16: a read inside a live array succeeds, and its word is written to `x[A]`. -/
theorem aidxLoadsTheWord : Obligations.AidxLoadsTheWord := by
  unfold Obligations.AidxLoadsTheWord
  intro a b c s x hx hi
  exact ⟨_, exec_aidx_of_read (Memory.read_eq_ok.2 ⟨x, hx, hi, rfl⟩), s.setReg_writesReg a _⟩

/-- Settles O18: a write inside a live array succeeds, and the rules about `MemWrite` say what every
address of the new bank reads. -/
theorem amendStoresTheWord : Obligations.AmendStoresTheWord := by
  unfold Obligations.AmendStoresTheWord
  intro a b c s x hx hi
  have hw := Memory.write_of_lt (v := s.reg c) hx hi
  exact ⟨_, exec_amend_of_write hw, s.setMem_onlyMemoryChanges _, Memory.read_write_same hw,
    fun h i hne => Memory.read_write_ne hne hw, Memory.write_free hw, Memory.write_count hw⟩

/-! ### The two faults -/

/-- `AIDX` raises what the translation of `(x[B], x[C])` raises (R100). -/
theorem exec_aidx_of_translate_error (ht : s.mem.translate (s.reg b) (s.reg c) = .error k) :
    exec (.aidx a b c) s = .next (s.raise k) :=
  execAidx_eq_next.2 (.inl ⟨k, ht, rfl⟩)

/-- `AMEND` raises what the translation of `(x[A], x[B])` raises (R101). -/
theorem exec_amend_of_translate_error (ht : s.mem.translate (s.reg a) (s.reg b) = .error k) :
    exec (.amend a b c) s = .next (s.raise k) :=
  execAmend_eq_next.2 (.inl ⟨k, ht, rfl⟩)

/-- An instruction that raises what the translation of `(h, j)` raises enters `InvalidHandle` for a
dead handle, and else `IndexError` past the end (20_memory.md R35). -/
theorem exec_faults_of_translate {i : Instr} {h j : Word}
    (hraise : ∀ k, s.mem.translate h j = .error k → exec i s = .next (s.raise k)) :
    (s.mem.live h = false → ∃ t, exec i s = .next t ∧ s.EntersFault t .invalidHandle) ∧
    (∀ x, s.mem.array? h = some x → x.len ≤ j.toNat →
      ∃ t, exec i s = .next t ∧ s.EntersFault t .indexError) := by
  constructor
  · intro hdead
    have ht := Memory.translate_of_dead (i := j) (Memory.live_eq_false.1 hdead)
    exact ⟨_, hraise _ ht, s.raise_entersFault _⟩
  · intro x hx hlen
    have ht := Memory.translate_of_len_le hx hlen
    exact ⟨_, hraise _ ht, s.raise_entersFault _⟩

/-- Settles O17: the faults of the translation of `(x[B], x[C])`. -/
theorem aidxFaults : Obligations.AidxFaults := by
  unfold Obligations.AidxFaults
  exact fun _ _ _ _ => exec_faults_of_translate fun _ => exec_aidx_of_translate_error

/-- Settles O19: the faults of the translation of `(x[A], x[B])`, raised before anything is stored. -/
theorem amendFaults : Obligations.AmendFaults := by
  unfold Obligations.AmendFaults
  exact fun _ _ _ _ => exec_faults_of_translate fun _ => exec_amend_of_translate_error

end Sys2Proof.Machine
end

section
/-! 43_alu.md R110 to R113: the four arithmetic values as numbers or bit by bit, and the instructions
that write them. -/

namespace Sys2Proof.Machine

/-! ### The values -/

theorem aluAdd_toNat (x y : Word) : (aluAdd x y).toNat = (x.toNat + y.toNat) % 4294967296 := by
  rw [aluAdd, BitVec.toNat_ofNat]

theorem aluMul_toNat (x y : Word) : (aluMul x y).toNat = (x.toNat * y.toNat) % 4294967296 := by
  rw [aluMul, BitVec.toNat_ofNat]

/-- A quotient is at most its dividend, so it fits in a word. -/
theorem aluDiv_toNat (x y : Word) : (aluDiv x y).toNat = x.toNat / y.toNat := by
  have hfits : x.toNat / y.toNat < 2 ^ 32 := (Nat.div_le_self _ _).trans_lt x.isLt
  rw [aluDiv, BitVec.toNat_ofNat, Nat.mod_eq_of_lt hfits]

theorem aluNand_getLsbD (x y : Word) {k : Nat} (hk : k < 32) :
    (aluNand x y).getLsbD k = !(x.getLsbD k && y.getLsbD k) := by
  rw [aluNand, BitVec.getLsbD_not, BitVec.getLsbD_and, decide_eq_true hk, Bool.true_and]

/-! ### The instructions -/

/-- An instruction that does nothing but write `v` to `x[a]` writes a value with every property of
`v`. -/
theorem exec_writes_value {s : State} {i : Instr} {a : Reg} {v : Word} {P : Word → Prop}
    (h : exec i s = .next (s.setReg a v)) (hv : P v) :
    ∃ t u, exec i s = .next t ∧ s.WritesReg t a u ∧ P u :=
  ⟨_, v, h, s.setReg_writesReg a v, hv⟩

/-- Settles O21: the value written is `aluAdd`, the sum of the operands as numbers. -/
theorem addIsTheSumModulo : Obligations.AddIsTheSumModulo := by
  unfold Obligations.AddIsTheSumModulo
  intro a b c s
  obtain ⟨-, -, -, hdecode, -⟩ := standardFormatFieldPositions 0 a b c (by decide)
  exact ⟨hdecode, exec_writes_value (execAdd_eq_next.2 rfl) (aluAdd_toNat _ _)⟩

/-- Settles O22: the value written is `aluMul`, the product of the operands as numbers. -/
theorem mulIsTheProductModulo : Obligations.MulIsTheProductModulo := by
  unfold Obligations.MulIsTheProductModulo
  intro a b c s
  obtain ⟨-, -, -, -, hdecode, -⟩ := standardFormatFieldPositions 0 a b c (by decide)
  exact ⟨hdecode, exec_writes_value (execMul_eq_next.2 rfl) (aluMul_toNat _ _)⟩

/-- Settles O23: a divisor that is not 0 takes `DIV` to its write, of a quotient that is not
truncated. -/
theorem divIsTheUnsignedFloor : Obligations.DivIsTheUnsignedFloor := by
  unfold Obligations.DivIsTheUnsignedFloor
  intro a b c s hc
  exact exec_writes_value (execDiv_eq_next.2 (.inr ⟨hc, rfl⟩)) (aluDiv_toNat _ _)

/-- Settles O24: the divisor 0 takes `DIV` to its fault. -/
theorem divByZeroFaults : Obligations.DivByZeroFaults := by
  unfold Obligations.DivByZeroFaults
  intro a b c s hc
  exact ⟨_, execDiv_eq_next.2 (.inl ⟨hc, rfl⟩), s.raise_entersFault _⟩

/-- Settles O25: the value written is `aluNand`, read bit by bit. -/
theorem nandIsBitwise : Obligations.NandIsBitwise := by
  unfold Obligations.NandIsBitwise
  intro a b c s
  obtain ⟨-, -, -, -, -, -, hdecode, -⟩ := standardFormatFieldPositions 0 a b c (by decide)
  exact ⟨hdecode, exec_writes_value (execNand_eq_next.2 rfl) fun _ => aluNand_getLsbD _ _⟩

end Sys2Proof.Machine
end

section
/-! 44_allocation.md R120, R121: `ALLOC` and `ABANDON`, the handle given or freed and the faults. -/

namespace Sys2Proof.Machine

variable {p : Params} {m m' : Memory} {size h : Word}

/-! ### Which requests are admitted -/

/-- Forced by the length (00_scope.md R6). -/
theorem allocAdmits_of_maxArrayWords_lt (hlong : p.maxArrayWords < size.toNat) :
    allocAdmits p m size = false :=
  Bool.eq_false_iff.2 fun hadm => Nat.not_le_of_lt hlong (allocAdmits_eq_true.1 hadm).1

/-- Forced by a full handle table (00_scope.md R6, 10_state.md R19). -/
theorem allocAdmits_of_full (hfr : m.free = []) (hfull : m.count = p.capHandles) :
    allocAdmits p m size = false :=
  Bool.eq_false_iff.2 fun hadm => (allocAdmits_eq_true.1 hadm).2.1 hfr hfull

/-- Being refused is the only way an allocation fails (20_memory.md R39). -/
theorem Memory.exists_allocate_of_admits (hadm : allocAdmits p m size = true) :
    ∃ h m', m.allocate p size = .ok (h, m') := by
  cases hal : m.allocate p size with
  | ok r => exact ⟨r.1, r.2, rfl⟩
  | error k =>
    have hrefused := (Memory.allocate_eq_error.1 hal).2
    exact absurd hadm (Bool.eq_false_iff.1 hrefused)

/-- The handle given is the popped top of the free list, or `N` where that list is empty
(20_memory.md R39). -/
theorem Memory.allocate_handle (hp : p.wf) (hf : m.fits p)
    (hal : m.allocate p size = .ok (h, m')) :
    (m.free = h :: m'.free ∧ m'.count = m.count) ∨
    (m.free = [] ∧ m'.free = [] ∧ h.toNat = m.count ∧ m'.count = m.count + 1) := by
  obtain ⟨hadm, ⟨rest, hfr, rfl⟩ | ⟨hfr, rfl, rfl⟩⟩ := Memory.allocate_eq_ok.1 hal
  · exact .inl ⟨hfr, List.length_set ..⟩
  · have hcount : (BitVec.ofNat 32 m.count).toNat = m.count :=
      Nat.mod_eq_of_lt (Memory.count_lt_of_admits hp hf hadm hfr)
    exact .inr ⟨hfr, rfl, hcount, List.length_append ..⟩

/-! ### `ALLOC` and `ABANDON` -/

variable {s : State} {b c : Reg}

/-- `ALLOC` with an allocation that succeeds (R120). -/
theorem exec_alloc_of_allocate (hal : s.mem.allocate s.params (s.reg c) = .ok (h, m)) :
    exec (.alloc b c) s = .next ((s.setMem m).setReg b h) :=
  execAlloc_eq_next.2 (.inr ⟨h, m, hal, rfl⟩)

/-- `ABANDON` with a release that succeeds (R121). -/
theorem exec_abandon_of_release (hr : s.mem.release (s.reg c) = .ok m) :
    exec (.abandon c) s = .next (s.setMem m) :=
  execAbandon_eq_next.2 (.inr ⟨m, hr, rfl⟩)

/-- Settles O26: the invariant makes the handle given a fresh one, and the register write that follows
the allocation leaves the new bank alone. -/
theorem allocGivesAFreshZeroArray : Obligations.AllocGivesAFreshZeroArray := by
  unfold Obligations.AllocGivesAFreshZeroArray
  intro b c s hinv hlen hcap hchosen
  obtain ⟨⟨hp, hm, hf⟩, -⟩ := State.inv_iff.1 hinv
  have hadm := allocAdmits_eq_true.2 ⟨hlen, hcap, hchosen⟩
  obtain ⟨h, m, hal⟩ := Memory.exists_allocate_of_admits hadm
  obtain ⟨-, -, hnew, hother⟩ := Memory.allocate_fresh hp hm hf hal
  obtain ⟨hwritten, hregs, hpc, hstatus, -, hconsole⟩ := (s.setMem m).setReg_writesReg b h
  exact ⟨_, h, exec_alloc_of_allocate hal, hwritten, hregs, hpc, hstatus, hconsole,
    Memory.allocate_handle hp hf hal, fun i => Memory.read_of_zeros hnew,
    fun g i hg => Memory.read_congr (hother g hg)⟩

/-- Settles O27: the two forced refusals, and the fault of any refusal. -/
theorem allocNotAdmittedFaults : Obligations.AllocNotAdmittedFaults := by
  unfold Obligations.AllocNotAdmittedFaults
  intro b c s
  exact ⟨allocAdmits_of_maxArrayWords_lt, allocAdmits_of_full, fun hrefused =>
    ⟨_, execAlloc_eq_next.2 (.inl ⟨hrefused, rfl⟩), s.raise_entersFault _⟩⟩

/-- Settles O28: the release succeeds, and the rules about `Release` say what the new bank holds. -/
theorem abandonFreesTheHandle : Obligations.AbandonFreesTheHandle := by
  unfold Obligations.AbandonFreesTheHandle
  intro c s h0 hl
  have hr := Memory.release_eq_ok.2 ⟨h0, hl, rfl⟩
  exact ⟨_, exec_abandon_of_release hr, s.setMem_onlyMemoryChanges _, rfl,
    Memory.release_count hr, Memory.live_eq_false.2 (Memory.release_array?_same hr),
    fun h i hne => Memory.read_congr (Memory.release_array?_ne hne hr)⟩

/-- Settles O29: the handle 0 and every handle that is not live take `ABANDON` to its fault. -/
theorem abandonFaults : Obligations.AbandonFaults := by
  unfold Obligations.AbandonFaults
  intro c s hbad
  exact ⟨_, execAbandon_eq_next.2 (.inl ⟨hbad, rfl⟩), s.raise_entersFault _⟩

end Sys2Proof.Machine
end

section
/-! 45_console.md R130 to R135: `OUT`, the answer an `IN` takes, and its wait. -/

namespace Sys2Proof.Machine

variable {s : State} {c : Reg} {a : ConsoleAnswer}

/-! ### `OUT` -/

/-- Settles O30: a value up to 255 is its low byte. -/
theorem outEmitsTheByte : Obligations.OutEmitsTheByte := by
  unfold Obligations.OutEmitsTheByte
  intro c s hc
  exact ⟨_, _, execOut_eq_next.2 (.inl ⟨hc, rfl⟩), lowByte_toNat hc, rfl, fun _ => rfl, rfl, rfl,
    ⟨fun _ _ => rfl, rfl⟩, rfl, rfl, rfl, rfl⟩

/-- Settles O31: a value above 255 takes `OUT` to its fault. -/
theorem outAbove255Faults : Obligations.OutAbove255Faults := by
  unfold Obligations.OutAbove255Faults
  intro c s hc
  exact ⟨_, execOut_eq_next.2 (.inr ⟨hc, rfl⟩), s.raise_entersFault _⟩

/-! ### The answer an `IN` takes -/

theorem exec_inp (c : Reg) (s : State) : exec (.inp c) s = .next (s.receive c) :=
  execInp_eq_next.2 rfl

/-- A core that waits does the rest of its `IN` and nothing else (R135). -/
theorem step_of_waiting (hrun : s.status = .running) (hw : s.waiting = some c) :
    step s = .next (s.receive c) :=
  step_eq_next.2 ⟨hrun, .inr ⟨c, hw, rfl⟩⟩

theorem byteValue_toNat (b : Byte) : (byteValue b).toNat = b.toNat :=
  BitVec.toNat_setWidth_of_le (by decide)

/-- `ConsoleRead` with an answer supplied has the effect the statements ask of it, whether or not the
core has waited for that answer. -/
theorem State.receive_takesAnswer (ha : s.nextAnswer = some a) :
    s.TakesAnswer (s.receive c) c a := by
  have hwritten : (s.receive c).reg c = answerValue a := by
    rw [State.receive_of_some s c a ha, State.setWaiting_reg, State.reg_setReg_same]
  rw [State.TakesAnswer, hwritten, State.receive_of_some s c a ha]
  refine ⟨?byte, ?endOfInput, rfl, rfl, fun q hq => State.reg_setReg_ne s.consumeAnswer c q _ hq,
    rfl, rfl, ⟨fun _ _ => rfl, rfl⟩, rfl, rfl, rfl⟩
  case byte =>
    rintro y rfl
    exact byteValue_toNat y
  case endOfInput =>
    rintro rfl
    rfl

/-- Settles O32: an `IN` is a `ConsoleRead`. -/
theorem inTakesTheAnswer : Obligations.InTakesTheAnswer := by
  unfold Obligations.InTakesTheAnswer
  exact fun c s _ ha => ⟨_, exec_inp c s, State.receive_takesAnswer ha⟩

/-- Settles O58: the step of a core that waits is the same `ConsoleRead`. -/
theorem waitingInputCompletes : Obligations.WaitingInputCompletes := by
  unfold Obligations.WaitingInputCompletes
  exact fun _ _ _ hrun hw ha => ⟨_, step_of_waiting hrun hw, State.receive_takesAnswer ha⟩

/-! ### The wait -/

/-- A machine whose step leads back to the same state stays there for any number of steps. -/
theorem run_of_step_self {M : Host.Core} {x : M.State} (h : M.step x = .next x) (n : Nat) :
    M.run n x = .next x := by
  induction n with
  | zero => rfl
  | succ n ih => simp only [Host.Core.run, h, ih]

/-- A core that waits with no answer supplied goes on waiting, unchanged (R135). -/
theorem run_of_waiting (hrun : s.status = .running) (hw : s.waiting = some c)
    (hno : s.nextAnswer = none) (n : Nat) : Sys2Proof.core.run n s = .next s := by
  have hsame : s.receive c = s := by
    rw [State.receive_of_none s c hno, ← hw]
    rfl
  have hstep : step s = .next s := by rw [step_of_waiting hrun hw, hsame]
  exact run_of_step_self (M := Sys2Proof.core) hstep n

/-- `IN` with no answer supplied: nothing but the wait is written (R135). -/
theorem exec_inp_of_none (hno : s.nextAnswer = none) :
    exec (.inp c) s = .next (s.setWaiting (some c)) := by
  rw [exec_inp, State.receive_of_none s c hno]

/-- Settles O57: the `IN` writes the wait only, and a step of the core that waits writes the wait it
has already. -/
theorem inputWithoutAnAnswerWaits : Obligations.InputWithoutAnAnswerWaits := by
  unfold Obligations.InputWithoutAnAnswerWaits
  refine ⟨fun c s hno => ?_, fun _ _ hrun hw hno => run_of_waiting hrun hw hno⟩
  exact ⟨_, exec_inp_of_none hno, rfl, fun _ => rfl, rfl, rfl, ⟨fun _ _ => rfl, rfl⟩,
    rfl, rfl, rfl, rfl⟩

/-- `ConsoleRead` overwrites the wait and does not read it (92_eei_decisions.md D24). -/
theorem State.receive_setWaiting (s : State) (w : Option Reg) (c : Reg) :
    (s.setWaiting w).receive c = s.receive c := by
  cases ha : s.nextAnswer with
  | none =>
    rw [State.receive_of_none s c ha, State.receive_of_none (s.setWaiting w) c ha]
    rfl
  | some a =>
    rw [State.receive_of_some s c a ha, State.receive_of_some (s.setWaiting w) c a ha]
    rfl

/-- Settles O59: the core that waits differs from the one before its `IN` in the wait alone, so the
answer, once supplied, brings both to one state. -/
theorem aWaitLeavesNoTrace : Obligations.AWaitLeavesNoTrace := by
  unfold Obligations.AWaitLeavesNoTrace
  intro c s a hrun _ hpos
  have hno : s.nextAnswer = none := List.getElem?_eq_none hpos.ge
  have hstep : step ((s.setWaiting (some c)).supply a) = .next ((s.supply a).receive c) :=
    calc step ((s.setWaiting (some c)).supply a)
      _ = .next (((s.supply a).setWaiting (some c)).receive c) := step_of_waiting hrun rfl
      _ = .next ((s.supply a).receive c) := by rw [State.receive_setWaiting]
  exact ⟨_, _, exec_inp_of_none hno, run_of_waiting hrun rfl hno, hstep, exec_inp c _⟩

end Sys2Proof.Machine
end

section
/-! 46_control.md R140 to R142: `HALT`, and the jump, the swap and the fault of `LOADPROG`. -/

namespace Sys2Proof.Machine

variable {s : State} {b c : Reg} {m : Memory} {h : Word} {a : WordArray}

/-! ### `HALT` -/

/-- A core that is not running takes no step (10_state.md R13). -/
theorem State.stopped_of_not_running (hst : s.status ≠ .running) : s.Stopped :=
  fun t ht => hst ((coreStepsExactlyWhileRunning s).1 ⟨t, ht⟩)

/-- Settles O33: `HALT` writes the status alone, whether executed or run as a step. -/
theorem haltStopsTheCore : Obligations.HaltStopsTheCore := by
  unfold Obligations.HaltStopsTheCore
  refine ⟨fun _ => decode_eq_halt.2, fun s => ?executed, fun s w hrun hw hf hop => ?stepped⟩
  case executed =>
    exact ⟨_, execHalt_eq_next.2 rfl, rfl, fun _ => rfl, rfl, ⟨fun _ _ => rfl, rfl⟩,
      ⟨rfl, rfl, rfl, rfl, rfl⟩, State.stopped_of_not_running nofun⟩
  case stepped =>
    exact ⟨_, step_of_atHalt hrun ⟨hw, w, hf, hop⟩, rfl, rfl⟩

/-! ### `LOADPROG` -/

/-- `LOADPROG` with a swap that succeeds: the new bank, and the finger at the target (R142). -/
theorem exec_loadprog_of_replaceProgram (hr : s.mem.replaceProgram (s.reg b) = .ok m) :
    exec (.loadprog b c) s = .next ((s.setMem m).setPc (s.reg c)) :=
  execLoadprog_eq_next.2 (.inr ⟨m, hr, rfl⟩)

/-- A swap from a live array never fails (20_memory.md R44 item 4). -/
theorem Memory.exists_replaceProgram (ha : m.array? h = some a) :
    ∃ m', m.replaceProgram h = .ok m' := by
  cases hr : m.replaceProgram h with
  | ok m' => exact ⟨m', rfl⟩
  | error k =>
    obtain ⟨-, -, hdead⟩ := Memory.replaceProgram_eq_error.1 hr
    cases ha.symm.trans hdead

/-- Settles O34: a swap from the handle 0 leaves the bank as it is, live or not. -/
theorem loadprogZeroIsAJump : Obligations.LoadprogZeroIsAJump := by
  unfold Obligations.LoadprogZeroIsAJump
  intro b c s hb
  have hr : s.mem.replaceProgram (s.reg b) = .ok s.mem :=
    Memory.replaceProgram_eq_ok.2 (.inl ⟨hb, rfl⟩)
  exact ⟨_, exec_loadprog_of_replaceProgram hr, rfl, fun _ => rfl, rfl, ⟨fun _ _ => rfl, rfl⟩,
    rfl, rfl, rfl, rfl, rfl⟩

/-- Settles O35: the swap succeeds, the rules about `ReplaceProgram` say what the new bank holds, and
the next fetch is a read of the new array 0 at the target. -/
theorem loadprogSwapsAndJumps : Obligations.LoadprogSwapsAndJumps := by
  unfold Obligations.LoadprogSwapsAndJumps
  intro b c s x hx
  obtain ⟨m, hr⟩ := Memory.exists_replaceProgram hx
  have hzero : m.array? 0#32 = some x := Memory.replaceProgram_array?_zero hx hr
  exact ⟨_, exec_loadprog_of_replaceProgram hr, rfl, hzero, Memory.read_of_array? hzero,
    fun _ => rfl, rfl, ⟨rfl, rfl, rfl, rfl, rfl⟩,
    fun h i hne => Memory.read_congr (Memory.replaceProgram_array?_ne hne hr),
    Memory.replaceProgram_free hr, Memory.replaceProgram_count hr⟩

/-- Settles O36: a handle that is neither 0 nor live takes `LOADPROG` to its fault. -/
theorem loadprogDeadHandleFaults : Obligations.LoadprogDeadHandleFaults := by
  unfold Obligations.LoadprogDeadHandleFaults
  intro b c s h0 hdead
  exact ⟨_, execLoadprog_eq_next.2 (.inl ⟨h0, Memory.live_eq_false.1 hdead, rfl⟩),
    s.raise_entersFault _⟩

end Sys2Proof.Machine
end

section
/-! 60_exceptions.md R150 to R159: a faulting step is nothing but a fault entry, before the advance of
the finger or after it, and the condition under which each instruction raises. -/

namespace Sys2Proof.Machine

variable {s t : State} {i : Instr} {w f : Word} {k : FaultKind}

/-! ### A fetched word that is no instruction -/

/-- A fetched word that does not decode faults with the finger advanced (R151). -/
theorem step_of_decode_error {e : DecodeError} (hrun : s.status = .running) (hw : s.waiting = none)
    (hf : s.fetch = .ok w) (hd : decode w = .error e) :
    step s = .next (s.advance.raise .invalidOpcode) :=
  step_eq_next.2 ⟨hrun, .inl ⟨hw, State.cycle_eq_next.2 (.inr (.inl ⟨w, e, hf, hd, rfl⟩))⟩⟩

/-- Settles O9: the decoder rejects the word, after the advance. -/
theorem invalidOpcodeFaultsAfterTheAdvance : Obligations.InvalidOpcodeFaultsAfterTheAdvance := by
  unfold Obligations.InvalidOpcodeFaultsAfterTheAdvance
  intro s w hrun hw hf hop
  have htop : 14 ≤ (opField w).toNat := by
    obtain hop | hop := hop <;> simp [hop]
  obtain ⟨e, hd⟩ := exists_decode_eq_error.2 htop
  exact ⟨_, step_of_decode_error hrun hw hf hd, s.advance.raise_entersFault _⟩

/-! ### Precise faults -/

/-- An instruction that leaves a running core faulted has done nothing but enter the fault. -/
theorem Effect.eq_raise_of_faulted (h : Effect s i t) (hrun : s.status = .running)
    (hst : t.status = .faulted k f) : t = s.raise k := by
  obtain ⟨k', rfl⟩ | ⟨-, hhalt⟩ | hsame := h.status
  · cases hst
    rfl
  · cases hhalt.symm.trans hst
  · cases (hsame.trans hrun).symm.trans hst

/-- A step that ends in a fault is the fault entry alone: from the state before it where the fetch
failed, and else from that state with the finger advanced (R157, R159). -/
theorem StepEffect.eq_raise_of_faulted (h : StepEffect s t) (hrun : s.status = .running)
    (hst : t.status = .faulted k f) :
    ((∃ e, s.fetch = .error e) ∧ t = s.raise k) ∨
    ((∃ w, s.fetch = .ok w) ∧ t = s.advance.raise k) := by
  cases h with
  | resumes c => cases ((State.receive_status s c).trans hrun).symm.trans hst
  | fetchFails _ _ hf =>
    cases hst
    exact .inl ⟨⟨_, hf⟩, rfl⟩
  | decodeFails _ hf =>
    cases hst
    exact .inr ⟨⟨_, hf⟩, rfl⟩
  | executes _ hf _ he => exact .inr ⟨⟨_, hf⟩, he.eq_raise_of_faulted hrun hst⟩

/-- Settles O11: the fault entry writes the status alone, and the advance the finger alone. -/
theorem faultsArePrecise : Obligations.FaultsArePrecise := by
  unfold Obligations.FaultsArePrecise
  intro s t k f h hst
  obtain ⟨hrun, he⟩ := step_effect h
  obtain ⟨⟨e, hf⟩, rfl⟩ | ⟨⟨w, hf⟩, rfl⟩ := he.eq_raise_of_faulted hrun hst
  · obtain ⟨-, hpc, hreg, hmem, hconsole⟩ := s.raise_entersFault k
    cases hst
    exact ⟨hreg, hmem, hconsole, rfl, fun _ => hpc, fun w hok => nomatch hf.symm.trans hok⟩
  · obtain ⟨-, hpc, hreg, hmem, hconsole⟩ := s.advance.raise_entersFault k
    cases hst
    exact ⟨hreg, hmem, hconsole, rfl, fun ⟨e, hfail⟩ => (nomatch hf.symm.trans hfail),
      fun _ _ => hpc⟩

/-! ### The faults of each instruction -/

/-- The condition under which each instruction raises the fault `k` (R151 to R155, R158); the seven
instructions not named raise none. -/
def FaultCause (s : State) (k : FaultKind) : Instr → Prop
  | .aidx _ b c => s.mem.translate (s.reg b) (s.reg c) = .error k
  | .amend a b _ => s.mem.translate (s.reg a) (s.reg b) = .error k
  | .div _ _ c => k = .divideByZero ∧ s.reg c = 0#32
  | .alloc _ c => k = .allocationError ∧ allocAdmits s.params s.mem (s.reg c) = false
  | .abandon c => k = .invalidHandle ∧ (s.reg c = 0#32 ∨ s.mem.live (s.reg c) = false)
  | .out c => k = .outOfRange ∧ 255 < (s.reg c).toNat
  | .loadprog b _ => k = .invalidHandle ∧ s.reg b ≠ 0#32 ∧ s.mem.live (s.reg b) = false
  | _ => False

/-- An instruction that leaves a running core faulted had the cause to raise: on every other path the
status is as before, or `HALTED`. -/
theorem faultCause_of_exec (hrun : s.status = .running) (h : exec i s = .next t)
    (hst : t.status = .faulted k f) : FaultCause s k i := by
  have hne : t.status ≠ s.status := fun hsame => nomatch (hsame.trans hrun).symm.trans hst
  cases i with
  | aidx a b c =>
    obtain ⟨k', ht, rfl⟩ | ⟨v, -, rfl⟩ := execAidx_eq_next.1 h
    · cases hst
      exact ht
    · exact absurd rfl hne
  | amend a b c =>
    obtain ⟨k', ht, rfl⟩ | ⟨m, -, rfl⟩ := execAmend_eq_next.1 h
    · cases hst
      exact ht
    · exact absurd rfl hne
  | div a b c =>
    obtain ⟨hzero, rfl⟩ | ⟨-, rfl⟩ := execDiv_eq_next.1 h
    · cases hst
      exact ⟨rfl, hzero⟩
    · exact absurd rfl hne
  | alloc b c =>
    obtain ⟨hrefused, rfl⟩ | ⟨g, m, -, rfl⟩ := execAlloc_eq_next.1 h
    · cases hst
      exact ⟨rfl, hrefused⟩
    · exact absurd rfl hne
  | abandon c =>
    obtain ⟨hbad, rfl⟩ | ⟨m, -, rfl⟩ := execAbandon_eq_next.1 h
    · cases hst
      exact ⟨rfl, hbad⟩
    · exact absurd rfl hne
  | out c =>
    obtain ⟨-, rfl⟩ | ⟨hlarge, rfl⟩ := execOut_eq_next.1 h
    · exact absurd rfl hne
    · cases hst
      exact ⟨rfl, hlarge⟩
  | loadprog b c =>
    obtain ⟨h0, hdead, rfl⟩ | ⟨m, -, rfl⟩ := execLoadprog_eq_next.1 h
    · cases hst
      exact ⟨rfl, h0, Memory.live_eq_false.2 hdead⟩
    · exact absurd rfl hne
  | cmov a b c => obtain ⟨-, rfl⟩ | ⟨-, rfl⟩ := execCmov_eq_next.1 h <;> exact absurd rfl hne
  | add a b c => exact absurd (execAdd_eq_next.1 h ▸ rfl) hne
  | mul a b c => exact absurd (execMul_eq_next.1 h ▸ rfl) hne
  | nand a b c => exact absurd (execNand_eq_next.1 h ▸ rfl) hne
  | orth d imm => exact absurd (execOrth_eq_next.1 h ▸ rfl) hne
  | inp c => exact absurd (execInp_eq_next.1 h ▸ State.receive_status s c) hne
  | halt =>
    obtain rfl := execHalt_eq_next.1 h
    cases hst

/-- Settles O13: the causes of each instruction, collected by the kind of fault. A translation checks
the handle before the index (20_memory.md R35). -/
theorem faultsOfEachInstruction : Obligations.FaultsOfEachInstruction := by
  unfold Obligations.FaultsOfEachInstruction
  intro i s t k f hrun h hst
  have hcause := faultCause_of_exec hrun h hst
  cases i with
  | aidx a b c =>
    obtain ⟨rfl, hdead⟩ | ⟨rfl, x, hx, hlen⟩ := Memory.translate_eq_error.1 hcause
    · exact .inl ⟨a, b, c, rfl, Memory.live_eq_false.2 hdead⟩
    · exact .inl ⟨a, b, c, x, rfl, hx, hlen⟩
  | amend a b c =>
    obtain ⟨rfl, hdead⟩ | ⟨rfl, x, hx, hlen⟩ := Memory.translate_eq_error.1 hcause
    · exact .inr (.inl ⟨a, b, c, rfl, Memory.live_eq_false.2 hdead⟩)
    · exact .inr ⟨a, b, c, x, rfl, hx, hlen⟩
  | div a b c =>
    obtain ⟨rfl, hzero⟩ := hcause
    exact ⟨a, b, c, rfl, hzero⟩
  | alloc b c =>
    obtain ⟨rfl, hrefused⟩ := hcause
    exact ⟨b, c, rfl, hrefused⟩
  | abandon c =>
    obtain ⟨rfl, hbad⟩ := hcause
    exact .inr (.inr (.inl ⟨c, rfl, hbad⟩))
  | out c =>
    obtain ⟨rfl, hlarge⟩ := hcause
    exact ⟨c, rfl, hlarge⟩
  | loadprog b c =>
    obtain ⟨rfl, h0, hdead⟩ := hcause
    exact .inr (.inr (.inr ⟨b, c, rfl, h0, hdead⟩))
  | cmov | add | mul | nand | halt | inp | orth => exact hcause.elim

end Sys2Proof.Machine
end

section
/-! 70_reset_and_hazards.md R171 and R173: what reset with an image leaves, and the words of the
image's byte stream. -/

namespace Sys2Proof.Machine

/-! ### Reset with an image -/

theorem State.boot_reg (p : Params) (answers : List ConsoleAnswer) (image : List Word) (q : Reg) :
    (State.boot p answers image).reg q = 0#32 :=
  Vector.getElem_replicate q.isLt

theorem Memory.single_array?_zero (a : WordArray) : (Memory.single a).array? 0#32 = some a := rfl

/-- Array 0 after reset is the image word for word (10_state.md R23). -/
theorem State.boot_program (p : Params) (answers : List ConsoleAnswer) (image : List Word) :
    ∃ x, (State.boot p answers image).mem.array? 0#32 = some x ∧ x.words = image := by
  rw [State.boot_mem]
  exact ⟨_, Memory.single_array?_zero _, WordArray.ofWords_words image⟩

/-- Settles O46: the fields of the boot state, and the one array it holds. -/
theorem resetLoadsTheImage : Obligations.ResetLoadsTheImage := by
  unfold Obligations.ResetLoadsTheImage
  exact fun p answers image => ⟨State.boot_reg p answers image, rfl, rfl, rfl, rfl,
    State.boot_program p answers image⟩

/-! ### The byte stream of an image -/

variable {b0 b1 b2 b3 : Byte} {bs rest : List Byte} {ws : List Word}

/-- Shifted into their places and joined, the four bytes stand one after the other, the first on
top. -/
theorem wordOfBytes_eq_append (b0 b1 b2 b3 : Byte) :
    wordOfBytes b0 b1 b2 b3 = b0 ++ b1 ++ b2 ++ b3 := by
  refine BitVec.eq_of_getLsbD_eq fun i hi => ?_
  simp only [wordOfBytes, BitVec.getLsbD_or, BitVec.getLsbD_shiftLeft, BitVec.getLsbD_setWidth,
    BitVec.getLsbD_append]
  grind

/-- A whole group in front is one word in front of those of the rest, which must be whole too. -/
theorem loadImage_group_eq_ok : loadImage (b0 :: b1 :: b2 :: b3 :: rest) = .ok ws ↔
    ∃ vs, loadImage rest = .ok vs ∧ ws = wordOfBytes b0 b1 b2 b3 :: vs := by
  cases h : loadImage rest <;> simp [loadImage, h, eq_comm]

theorem loadImage_group_eq_error {e : LoadError} :
    loadImage (b0 :: b1 :: b2 :: b3 :: rest) = .error e ↔ loadImage rest = .error e := by
  cases h : loadImage rest <;> simp [loadImage, h]

theorem length_group_mod_four (b0 b1 b2 b3 : Byte) (rest : List Byte) :
    (b0 :: b1 :: b2 :: b3 :: rest).length % 4 = rest.length % 4 :=
  Nat.add_mod_right rest.length 4

theorem loadImage_of_partial (h : bs.length % 4 ≠ 0) : loadImage bs = .error .truncatedImage := by
  induction bs using loadImage.induct with
  | case1 => exact absurd rfl h
  | case2 b0 b1 b2 b3 rest _ _ ih | case3 b0 b1 b2 b3 rest _ _ ih =>
    rw [length_group_mod_four] at h
    exact loadImage_group_eq_error.2 (ih h)
  | case4 | case5 | case6 => rfl

theorem exists_loadImage_eq_ok (h : bs.length % 4 = 0) : ∃ ws, loadImage bs = .ok ws := by
  induction bs using loadImage.induct with
  | case1 => exact ⟨[], rfl⟩
  | case2 b0 b1 b2 b3 rest _ _ ih | case3 b0 b1 b2 b3 rest _ _ ih =>
    rw [length_group_mod_four] at h
    obtain ⟨vs, hvs⟩ := ih h
    exact ⟨_, loadImage_group_eq_ok.2 ⟨vs, hvs, rfl⟩⟩
  | case4 | case5 | case6 => exact absurd h (by simp)

/-- Every word of an image takes four bytes of the stream, and no byte is left over. -/
theorem loadImage_length (h : loadImage bs = .ok ws) : bs.length = 4 * ws.length := by
  induction bs using loadImage.induct generalizing ws with
  | case1 => cases h; rfl
  | case2 b0 b1 b2 b3 rest _ _ ih | case3 b0 b1 b2 b3 rest _ _ ih =>
    obtain ⟨vs, hvs, rfl⟩ := loadImage_group_eq_ok.1 h
    have hrest := ih hvs
    simp only [List.length_cons]
    omega
  | case4 | case5 | case6 => cases h

/-- Word `k` of an image is the group of the bytes `4k` to `4k + 3`: the first group is the first
word, and past it both sides move on by one. -/
theorem loadImage_getElem? {k : Nat} (h : loadImage bs = .ok ws)
    (h0 : bs[4 * k]? = some b0) (h1 : bs[4 * k + 1]? = some b1) (h2 : bs[4 * k + 2]? = some b2)
    (h3 : bs[4 * k + 3]? = some b3) : ws[k]? = some (wordOfBytes b0 b1 b2 b3) := by
  induction bs using loadImage.induct generalizing ws k with
  | case1 => cases h0
  | case2 c0 c1 c2 c3 rest _ _ ih | case3 c0 c1 c2 c3 rest _ _ ih =>
    obtain ⟨vs, hvs, rfl⟩ := loadImage_group_eq_ok.1 h
    cases k with
    | zero =>
      cases h0; cases h1; cases h2; cases h3
      rfl
    | succ k =>
      rw [List.getElem?_cons_succ]
      exact ih hvs h0 h1 h2 h3
  | case4 | case5 | case6 => cases h

/-- Settles O48, along the groups of the stream; each of its words is its group's four bytes, joined. -/
theorem imageBytesAreBigEndian : Obligations.ImageBytesAreBigEndian := by
  unfold Obligations.ImageBytesAreBigEndian
  intro bs
  refine ⟨loadImage_of_partial, fun hwhole => ?_,
    fun ws p answers _ => State.boot_program p answers ws⟩
  obtain ⟨ws, hws⟩ := exists_loadImage_eq_ok hwhole
  have hlen := loadImage_length hws
  refine ⟨ws, hws, by omega, fun k b0 b1 b2 b3 h0 h1 h2 h3 => ?_⟩
  rw [← wordOfBytes_eq_append]
  exact loadImage_getElem? hws h0 h1 h2 h3

end Sys2Proof.Machine
end
